-- ==== Sys2Proof/Word.lean ====
section
/-! DEFINITION. Words: the three widths of value the spec has (00_scope R7). -/

namespace Sys2Proof

/-- A byte of memory or of the instruction stream, `u8` (R7). -/
abbrev Byte := BitVec 8

/-- A register, address or immediate, `u32` (R7); `+` and `-` wrap modulo 2^32. -/
abbrev Word := BitVec 32

/-- A port number, `u16` (R7, R35). -/
abbrev Port := BitVec 16

end Sys2Proof
end

