-- ==== Sys2Proof/Syntax.lean ====
section
/-! DEFINITION. Syntax: registers, operand forms and the 29 instructions of spec/opcode_table.json. -/

namespace Sys2Proof

/-- The general registers in index order 0 to 7 (R16). -/
inductive Reg where
  | eax | ecx | edx | ebx | esp | ebp | esi | edi
deriving DecidableEq, Repr

/-- The memory operand forms of R56 (`mod != 3`), one per kind of address. The `sib` forms are decoded with
their SIB byte and displacement, and have no effective address (R53, R55). -/
inductive MemForm where
  /-- `mod = 0`, `rm` not 4 or 5: memory at the register. -/
  | ind (base : Reg)
  /-- `mod = 0`, `rm = 5`: memory at the displacement. -/
  | abs (disp : Word)
  /-- `mod = 1`, `rm != 4`: memory at the register plus the sign-extended byte. -/
  | disp8 (base : Reg) (disp : Byte)
  /-- `mod = 2`, `rm != 4`: memory at the register plus the displacement. -/
  | disp32 (base : Reg) (disp : Word)
  /-- `mod = 0`, `rm = 4`. -/
  | sib (sib : Byte)
  /-- `mod = 1`, `rm = 4`. -/
  | sibDisp8 (sib : Byte) (disp : Byte)
  /-- `mod = 2`, `rm = 4`. -/
  | sibDisp32 (sib : Byte) (disp : Word)
deriving DecidableEq, Repr

/-- An `r/m32` operand: a register (`mod = 3`) or memory (R14, R56). -/
inductive RM where
  | reg (r : Reg)
  | mem (m : MemForm)
deriving DecidableEq, Repr

/-- The instructions, in the order of spec/opcode_table.json (R66). Immediates and displacements are held as
the bits the instruction stream has; a meaning widens them. -/
inductive Instr where
  /-- `ADD r/m32, r32` (R82). -/
  | addRmR32 (rm : RM) (src : Reg)
  /-- `CMP r32, r/m32` (R89). -/
  | cmpR32Rm (lhs : Reg) (rm : RM)
  /-- `PUSH r32` (R95). -/
  | pushR32 (r : Reg)
  /-- `POP r32` (R96). -/
  | popR32 (r : Reg)
  /-- `PUSH imm32` (R97). -/
  | pushImm32 (imm : Word)
  /-- `PUSH imm8` (R98). -/
  | pushImm8 (imm : Byte)
  /-- `JO rel8` (R107). -/
  | jo (rel : Byte)
  /-- `JNO rel8` (R108). -/
  | jno (rel : Byte)
  /-- `JC rel8` (R109). -/
  | jc (rel : Byte)
  /-- `JNC rel8` (R110). -/
  | jnc (rel : Byte)
  /-- `JZ rel8` (R111). -/
  | jz (rel : Byte)
  /-- `JNZ rel8` (R112). -/
  | jnz (rel : Byte)
  /-- `JS rel8` (R113). -/
  | js (rel : Byte)
  /-- `JNS rel8` (R114). -/
  | jns (rel : Byte)
  /-- `JL rel8` (R115). -/
  | jl (rel : Byte)
  /-- `JLE rel8` (R116). -/
  | jle (rel : Byte)
  /-- `ADD r/m32, imm8` (R83). -/
  | addRmImm8 (rm : RM) (imm : Byte)
  /-- `SUB r/m32, imm8` (R84). -/
  | subRmImm8 (rm : RM) (imm : Byte)
  /-- `CMP r/m32, imm8` (R85). -/
  | cmpRmImm8 (rm : RM) (imm : Byte)
  /-- `MOV r/m32, r32` (R91). -/
  | movRmR32 (rm : RM) (src : Reg)
  /-- `MOV r32, r/m32` (R92). -/
  | movR32Rm (dst : Reg) (rm : RM)
  /-- `MOV r32, imm32` (R93). -/
  | movR32Imm32 (dst : Reg) (imm : Word)
  /-- `RET` (R100). -/
  | ret
  /-- `MOV r/m32, imm32` (R94); `ignored` is the ModRM `reg` field, which nothing examines (R64, D13). -/
  | movRmImm32 (ignored : BitVec 3) (rm : RM) (imm : Word)
  /-- `LEAVE` (R101). -/
  | leave
  /-- `CALL rel32` (R99). -/
  | callRel32 (rel : Word)
  /-- `JMP rel32` (R105). -/
  | jmpRel32 (rel : Word)
  /-- `JMP rel8` (R104). -/
  | jmpRel8 (rel : Byte)
  /-- `INC r/m32` (R87). -/
  | incRm (rm : RM)
deriving DecidableEq, Repr

end Sys2Proof
end

