-- ==== Sys2Proof/WellFormed.lean ====
section
/-! DEFINITION. Well-formed instructions: the terms of `Instr` that some bytes encode. Only the base register of
a memory form is restricted (R56); every other field takes all its values. -/

namespace Sys2Proof

/-- R56: `rm = 4` never names a base register, and with `mod = 0` neither does `rm = 5`. -/
def MemForm.wellFormed : MemForm → Bool
  | .ind b => b != .esp && b != .ebp
  | .disp8 b _ => b != .esp
  | .disp32 b _ => b != .esp
  | .abs _ => true
  | .sib _ => true
  | .sibDisp8 _ _ => true
  | .sibDisp32 _ _ => true

/-- A register operand is always well formed. -/
def RM.wellFormed : RM → Bool
  | .reg _ => true
  | .mem m => m.wellFormed

/-- The `r/m32` operand of an instruction that has one. -/
def Instr.rm? : Instr → Option RM
  | .addRmR32 rm _ => some rm
  | .cmpR32Rm _ rm => some rm
  | .addRmImm8 rm _ => some rm
  | .subRmImm8 rm _ => some rm
  | .cmpRmImm8 rm _ => some rm
  | .movRmR32 rm _ => some rm
  | .movR32Rm _ rm => some rm
  | .movRmImm32 _ rm _ => some rm
  | .incRm rm => some rm
  | .pushR32 _ => none
  | .popR32 _ => none
  | .pushImm32 _ => none
  | .pushImm8 _ => none
  | .jo _ => none
  | .jno _ => none
  | .jc _ => none
  | .jnc _ => none
  | .jz _ => none
  | .jnz _ => none
  | .js _ => none
  | .jns _ => none
  | .jl _ => none
  | .jle _ => none
  | .movR32Imm32 _ _ => none
  | .ret => none
  | .leave => none
  | .callRel32 _ => none
  | .jmpRel32 _ => none
  | .jmpRel8 _ => none

/-- An instruction is well formed when its `r/m32` operand, if it has one, is. -/
def Instr.wellFormed (i : Instr) : Bool := i.rm?.all RM.wellFormed

end Sys2Proof
end

