-- ==== Sys2Proof/Decode.lean ====
section
/-! DEFINITION. Decode: bytes to instructions, total and rejecting by name, and the encoder after it; with the
bit-field, sign-extension and byte-order helpers the machine shares. -/

namespace Sys2Proof

/-! ### Bits and bytes -/

/-- `sext_32` (R7). -/
def sext32 (b : Byte) : Word := b.signExtend 32

/-- `zext_32` (R7). -/
def zext32 (b : Byte) : Word := b.setWidth 32

/-- Byte `k` of a word, `v[8k+7 : 8k]`. -/
def byteOf (v : Word) (k : Nat) : Byte := v.extractLsb' (8 * k) 8

/-- The word whose byte of significance `k` is `bk`: little-endian assembly (R37). -/
def wordOf (b0 b1 b2 b3 : Byte) : Word := b3 ++ b2 ++ b1 ++ b0

/-- The bytes of a word at increasing addresses (R37, R39). -/
def wordBytes (v : Word) : List Byte := [byteOf v 0, byteOf v 1, byteOf v 2, byteOf v 3]

/-- The register file index of a register (R16). -/
def Reg.bits : Reg → BitVec 3
  | .eax => 0
  | .ecx => 1
  | .edx => 2
  | .ebx => 3
  | .esp => 4
  | .ebp => 5
  | .esi => 6
  | .edi => 7

/-- The register of an index (R16). -/
def Reg.ofBits (b : BitVec 3) : Reg :=
  match b.toNat with
  | 0 => .eax
  | 1 => .ecx
  | 2 => .edx
  | 3 => .ebx
  | 4 => .esp
  | 5 => .ebp
  | 6 => .esi
  | _ => .edi

/-! ### Rejections -/

/-- Why some bytes are no instruction of the subset. -/
inductive DecodeError where
  /-- The list ends inside the instruction. Eleven bytes are never too few: log entry 6. -/
  | truncated
  /-- The opcode byte has an empty entry of the dispatch table (R67). -/
  | emptyEntry (op : Byte)
  /-- A group opcode's sub-opcode is not supported (R68); `rm` is the operand decoded before the check. -/
  | groupVariant (op : Byte) (sub : BitVec 3) (rm : RM)
deriving DecidableEq, Repr

/-! ### The dispatch table -/

/-- What an entry of the dispatch table names: an instruction, or one of the two group opcodes (R64, R65). -/
inductive Handler where
  | addRmR32 | cmpR32Rm | pushR32 | popR32 | pushImm32 | pushImm8
  | jo | jno | jc | jnc | jz | jnz | js | jns | jl | jle
  | group83 | movRmR32 | movR32Rm | movR32Imm32 | ret | movRmImm32 | leave
  | callRel32 | jmpRel32 | jmpRel8 | groupFF
deriving DecidableEq, Repr

/-- A row of the opcode map: the opcode bytes that equal `pattern` under `mask`. -/
structure OpcodeRow where
  pattern : Byte
  mask : Byte
  handler : Handler
deriving DecidableEq, Repr

/-- The row covers the byte. -/
def OpcodeRow.covers (r : OpcodeRow) (op : Byte) : Bool := (op &&& r.mask) == r.pattern

/-- The registered entries in opcode order (R66). -/
def opcodeMap : List OpcodeRow :=
  [⟨0x01, 0xFF, .addRmR32⟩, ⟨0x3B, 0xFF, .cmpR32Rm⟩, ⟨0x50, 0xF8, .pushR32⟩, ⟨0x58, 0xF8, .popR32⟩,
   ⟨0x68, 0xFF, .pushImm32⟩, ⟨0x6A, 0xFF, .pushImm8⟩] ++
  [⟨0x70, 0xFF, .jo⟩, ⟨0x71, 0xFF, .jno⟩, ⟨0x72, 0xFF, .jc⟩, ⟨0x73, 0xFF, .jnc⟩, ⟨0x74, 0xFF, .jz⟩,
   ⟨0x75, 0xFF, .jnz⟩, ⟨0x78, 0xFF, .js⟩, ⟨0x79, 0xFF, .jns⟩, ⟨0x7C, 0xFF, .jl⟩, ⟨0x7E, 0xFF, .jle⟩] ++
  [⟨0x83, 0xFF, .group83⟩, ⟨0x89, 0xFF, .movRmR32⟩, ⟨0x8B, 0xFF, .movR32Rm⟩, ⟨0xB8, 0xF8, .movR32Imm32⟩,
   ⟨0xC3, 0xFF, .ret⟩, ⟨0xC7, 0xFF, .movRmImm32⟩, ⟨0xC9, 0xFF, .leave⟩] ++
  [⟨0xE8, 0xFF, .callRel32⟩, ⟨0xE9, 0xFF, .jmpRel32⟩, ⟨0xEB, 0xFF, .jmpRel8⟩, ⟨0xFF, 0xFF, .groupFF⟩]

/-- The dispatch table (R65): the handler of a first instruction byte, `none` for an empty entry (R67). -/
def dispatch (op : Byte) : Option Handler := (opcodeMap.find? (·.covers op)).map (·.handler)

/-! ### Decoding -/

/-- One byte of the instruction stream. -/
def takeByte : List Byte → Except DecodeError (Byte × List Byte)
  | b :: bs => .ok (b, bs)
  | [] => .error .truncated

/-- Four bytes of the instruction stream, little-endian (R39). -/
def takeWord : List Byte → Except DecodeError (Word × List Byte)
  | b0 :: b1 :: b2 :: b3 :: bs => .ok (wordOf b0 b1 b2 b3, bs)
  | _ => .error .truncated

/-- `b[7:6]` (R52). -/
def modField (b : Byte) : BitVec 2 := b.extractLsb' 6 2

/-- `b[5:3]` (R52). -/
def regField (b : Byte) : BitVec 3 := b.extractLsb' 3 3

/-- `b[2:0]` (R52), also the register of a `+r` opcode (R63). -/
def rmField (b : Byte) : BitVec 3 := b.extractLsb' 0 3

/-- The memory operand of a ModRM byte with `mod != 3`: SIB byte, then displacement (R54, R56). -/
def takeMemForm (mod : BitVec 2) (rm : BitVec 3) (bs : List Byte) : Except DecodeError (MemForm × List Byte) :=
  if rm = 4 then do
    let (s, bs) ← takeByte bs
    if mod = 0 then .ok (.sib s, bs)
    else if mod = 1 then do
      let (d, bs) ← takeByte bs
      .ok (.sibDisp8 s d, bs)
    else do
      let (d, bs) ← takeWord bs
      .ok (.sibDisp32 s d, bs)
  else if mod = 0 then
    if rm = 5 then do
      let (d, bs) ← takeWord bs
      .ok (.abs d, bs)
    else .ok (.ind (.ofBits rm), bs)
  else if mod = 1 then do
    let (d, bs) ← takeByte bs
    .ok (.disp8 (.ofBits rm) d, bs)
  else do
    let (d, bs) ← takeWord bs
    .ok (.disp32 (.ofBits rm) d, bs)

/-- `DecodeModRM` (R54): the `reg` field and the `r/m32` operand. -/
def takeModRM (bs : List Byte) : Except DecodeError ((BitVec 3 × RM) × List Byte) := do
  let (b, bs) ← takeByte bs
  if modField b = 3 then .ok ((regField b, .reg (.ofBits (rmField b))), bs)
  else do
    let (m, bs) ← takeMemForm (modField b) (rmField b) bs
    .ok ((regField b, .mem m), bs)

/-- An instruction whose operands are `reg` and `r/m32`. -/
def decodeModRM (mk : Reg → RM → Instr) (bs : List Byte) : Except DecodeError (Instr × List Byte) := do
  let ((reg, rm), bs) ← takeModRM bs
  .ok (mk (.ofBits reg) rm, bs)

/-- An instruction whose operand is one byte. -/
def decodeByte (mk : Byte → Instr) (bs : List Byte) : Except DecodeError (Instr × List Byte) := do
  let (b, bs) ← takeByte bs
  .ok (mk b, bs)

/-- An instruction whose operand is one word. -/
def decodeWord (mk : Word → Instr) (bs : List Byte) : Except DecodeError (Instr × List Byte) := do
  let (v, bs) ← takeWord bs
  .ok (mk v, bs)

/-- The instruction a supported sub-opcode of `83` selects (R64). -/
def group83 (sub : BitVec 3) : Option (RM → Byte → Instr) :=
  match sub.toNat with
  | 0 => some .addRmImm8
  | 5 => some .subRmImm8
  | 7 => some .cmpRmImm8
  | _ => none

/-- Opcode `83` (R64, R68, R86): the sub-opcode is checked after the ModRM bytes, before the immediate. -/
def decodeGroup83 (op : Byte) (bs : List Byte) : Except DecodeError (Instr × List Byte) := do
  let ((sub, rm), bs) ← takeModRM bs
  match group83 sub with
  | none => .error (.groupVariant op sub rm)
  | some mk => do
    let (b, bs) ← takeByte bs
    .ok (mk rm b, bs)

/-- Opcode `FF` (R64, R68, R88). -/
def decodeGroupFF (op : Byte) (bs : List Byte) : Except DecodeError (Instr × List Byte) := do
  let ((sub, rm), bs) ← takeModRM bs
  if sub = 0 then .ok (.incRm rm, bs) else .error (.groupVariant op sub rm)

/-- Opcode `C7`: the `reg` field is kept and not examined (R64, D13). -/
def decodeC7 (bs : List Byte) : Except DecodeError (Instr × List Byte) := do
  let ((ignored, rm), bs) ← takeModRM bs
  let (v, bs) ← takeWord bs
  .ok (.movRmImm32 ignored rm v, bs)

/-- The bytes after the opcode, by handler (R50, R66). -/
def decodeRest (h : Handler) (op : Byte) (bs : List Byte) : Except DecodeError (Instr × List Byte) :=
  match h with
  | .addRmR32 => decodeModRM (fun reg rm => .addRmR32 rm reg) bs
  | .cmpR32Rm => decodeModRM .cmpR32Rm bs
  | .pushR32 => .ok (.pushR32 (.ofBits (rmField op)), bs)
  | .popR32 => .ok (.popR32 (.ofBits (rmField op)), bs)
  | .pushImm32 => decodeWord .pushImm32 bs
  | .pushImm8 => decodeByte .pushImm8 bs
  | .jo => decodeByte .jo bs
  | .jno => decodeByte .jno bs
  | .jc => decodeByte .jc bs
  | .jnc => decodeByte .jnc bs
  | .jz => decodeByte .jz bs
  | .jnz => decodeByte .jnz bs
  | .js => decodeByte .js bs
  | .jns => decodeByte .jns bs
  | .jl => decodeByte .jl bs
  | .jle => decodeByte .jle bs
  | .group83 => decodeGroup83 op bs
  | .movRmR32 => decodeModRM (fun reg rm => .movRmR32 rm reg) bs
  | .movR32Rm => decodeModRM .movR32Rm bs
  | .movR32Imm32 => decodeWord (.movR32Imm32 (.ofBits (rmField op))) bs
  | .ret => .ok (.ret, bs)
  | .movRmImm32 => decodeC7 bs
  | .leave => .ok (.leave, bs)
  | .callRel32 => decodeWord .callRel32 bs
  | .jmpRel32 => decodeWord .jmpRel32 bs
  | .jmpRel8 => decodeByte .jmpRel8 bs
  | .groupFF => decodeGroupFF op bs

/-- The instruction at the head of a list of bytes, with the bytes after it (R50). -/
def decode (bs : List Byte) : Except DecodeError (Instr × List Byte) := do
  let (op, bs) ← takeByte bs
  match dispatch op with
  | none => .error (.emptyEntry op)
  | some h => decodeRest h op bs

/-! ### Encoding -/

/-- The ModRM byte of its three fields (R52). -/
def modRMByte (mod : BitVec 2) (reg rm : BitVec 3) : Byte := mod ++ reg ++ rm

/-- The `mod` field of a memory form (R56). -/
def MemForm.modBits : MemForm → BitVec 2
  | .ind _ => 0
  | .abs _ => 0
  | .disp8 _ _ => 1
  | .disp32 _ _ => 2
  | .sib _ => 0
  | .sibDisp8 _ _ => 1
  | .sibDisp32 _ _ => 2

/-- The `rm` field of a memory form (R56). -/
def MemForm.rmBits : MemForm → BitVec 3
  | .ind b => b.bits
  | .abs _ => 5
  | .disp8 b _ => b.bits
  | .disp32 b _ => b.bits
  | .sib _ => 4
  | .sibDisp8 _ _ => 4
  | .sibDisp32 _ _ => 4

/-- The SIB and displacement bytes of a memory form (R54). -/
def MemForm.tail : MemForm → List Byte
  | .ind _ => []
  | .abs d => wordBytes d
  | .disp8 _ d => [d]
  | .disp32 _ d => wordBytes d
  | .sib s => [s]
  | .sibDisp8 s d => [s, d]
  | .sibDisp32 s d => s :: wordBytes d

/-- The ModRM bytes of an operand, with the given `reg` field. -/
def RM.encode (reg : BitVec 3) : RM → List Byte
  | .reg r => [modRMByte 3 reg r.bits]
  | .mem m => modRMByte m.modBits reg m.rmBits :: m.tail

/-- A `+r` opcode byte (R63). -/
def plusReg (base : Byte) (r : Reg) : Byte := base ||| r.bits.setWidth 8

/-- The bytes of an instruction (R50, R66). -/
def encode : Instr → List Byte
  | .addRmR32 rm src => 0x01 :: rm.encode src.bits
  | .cmpR32Rm lhs rm => 0x3B :: rm.encode lhs.bits
  | .pushR32 r => [plusReg 0x50 r]
  | .popR32 r => [plusReg 0x58 r]
  | .pushImm32 v => 0x68 :: wordBytes v
  | .pushImm8 b => [0x6A, b]
  | .jo d => [0x70, d]
  | .jno d => [0x71, d]
  | .jc d => [0x72, d]
  | .jnc d => [0x73, d]
  | .jz d => [0x74, d]
  | .jnz d => [0x75, d]
  | .js d => [0x78, d]
  | .jns d => [0x79, d]
  | .jl d => [0x7C, d]
  | .jle d => [0x7E, d]
  | .addRmImm8 rm b => 0x83 :: rm.encode 0 ++ [b]
  | .subRmImm8 rm b => 0x83 :: rm.encode 5 ++ [b]
  | .cmpRmImm8 rm b => 0x83 :: rm.encode 7 ++ [b]
  | .movRmR32 rm src => 0x89 :: rm.encode src.bits
  | .movR32Rm dst rm => 0x8B :: rm.encode dst.bits
  | .movR32Imm32 r v => plusReg 0xB8 r :: wordBytes v
  | .ret => [0xC3]
  | .movRmImm32 ignored rm v => 0xC7 :: rm.encode ignored ++ wordBytes v
  | .leave => [0xC9]
  | .callRel32 d => 0xE8 :: wordBytes d
  | .jmpRel32 d => 0xE9 :: wordBytes d
  | .jmpRel8 d => [0xEB, d]
  | .incRm rm => 0xFF :: rm.encode 0

/-! ### Lengths -/

/-- `L(m)`, the number of ModRM bytes (R56, R69). -/
def RM.length : RM → Nat
  | .reg _ => 1
  | .mem (.ind _) => 1
  | .mem (.abs _) => 5
  | .mem (.disp8 _ _) => 2
  | .mem (.disp32 _ _) => 5
  | .mem (.sib _) => 2
  | .mem (.sibDisp8 _ _) => 3
  | .mem (.sibDisp32 _ _) => 6

/-- The length of an instruction in bytes (R69). -/
def Instr.length : Instr → Nat
  | .addRmR32 rm _ => 1 + rm.length
  | .cmpR32Rm _ rm => 1 + rm.length
  | .pushR32 _ => 1
  | .popR32 _ => 1
  | .pushImm32 _ => 5
  | .pushImm8 _ => 2
  | .jo _ => 2
  | .jno _ => 2
  | .jc _ => 2
  | .jnc _ => 2
  | .jz _ => 2
  | .jnz _ => 2
  | .js _ => 2
  | .jns _ => 2
  | .jl _ => 2
  | .jle _ => 2
  | .addRmImm8 rm _ => 2 + rm.length
  | .subRmImm8 rm _ => 2 + rm.length
  | .cmpRmImm8 rm _ => 2 + rm.length
  | .movRmR32 rm _ => 1 + rm.length
  | .movR32Rm _ rm => 1 + rm.length
  | .movR32Imm32 _ _ => 5
  | .ret => 1
  | .movRmImm32 _ rm _ => 5 + rm.length
  | .leave => 1
  | .callRel32 _ => 5
  | .jmpRel32 _ => 5
  | .jmpRel8 _ => 2
  | .incRm rm => 1 + rm.length

/-- The longest instruction, `C7` with a SIB byte and a 32-bit displacement, has 11 bytes counting the SIB byte;
the longest that completes has 10 (R50, R69). -/
def maxLength : Nat := 11

/-- The instruction read from bytes numbered as spec/opcode_table.json numbers bits: byte 0 is the opcode,
byte 1 is bits 15..8; every byte above `nbits` is 0. -/
def tableBytes (nbits w : Nat) : List Byte :=
  (List.range maxLength).map fun k => BitVec.ofNat 8 ((w % 2 ^ nbits) / 2 ^ (8 * k))

/-- The decoder's answer on an opcode-table word. -/
def decodeTableWord (nbits w : Nat) : Option Instr :=
  match decode (tableBytes nbits w) with
  | .ok (i, _) => some i
  | .error _ => none

end Sys2Proof
end

