-- ==== Sys2Proof/Config.lean ====
section
/-! DEFINITION. Configuration: the launch parameters of 00_scope R6, and the two things the spec leaves open. -/

namespace Sys2Proof

/-- How `PUSH imm8` widens its byte: the two settings of `PUSH_IMM8_EXTEND` (R6, R98). -/
inductive Extend where
  | sign
  | zero
deriving DecidableEq, Repr, Inhabited

/-- The parameter `PUSH_IMM8_EXTEND` of the launch that `State.reset` stands for. The spec leaves it OPEN
(R6, D12, U5), so it has no body: nothing can prove which setting it is. DESIGN CHOICE, safe: log entry 2. -/
opaque Config.pushImm8Extend : Extend

/-- What the `n`-th read of an unwired port answers: any value (R133, D19, U6), so it has no body.
No instruction reads a port. DESIGN CHOICE, safe: log entry 3. -/
opaque Config.unwiredPort : Nat → Port → Byte

/-- The parameters of one launch (R6), fixed for the whole run. `EIP0` is `loadBase` (D3). -/
structure Launch where
  /-- `MEM_SIZE`: the addresses `0 .. memSize - 1` exist. -/
  memSize : Nat
  /-- `LOAD_BASE`: address of the image's first byte, and EIP at reset. -/
  loadBase : Word
  /-- `ESP0`: ESP at reset. -/
  esp0 : Word
  /-- `PUSH_IMM8_EXTEND`. -/
  pushImm8Extend : Extend
deriving DecidableEq, Repr

/-- The values R6 allows for `MEM_SIZE`: `4 <= MEM_SIZE <= 2^32`. -/
def Launch.legal (l : Launch) : Bool := decide (4 ≤ l.memSize) && decide (l.memSize ≤ 2 ^ 32)

/-- R6, R141: the image fits, `LOAD_BASE + len(IMAGE) <= MEM_SIZE`. -/
def Launch.fits (l : Launch) (len : Nat) : Bool := decide (l.loadBase.toNat + len ≤ l.memSize)

/-- The defaults of R6; the open parameter stays open. -/
def Launch.standard : Launch where
  memSize := 0x100000
  loadBase := 0x7C00
  esp0 := 0x7C00
  pushImm8Extend := Config.pushImm8Extend

end Sys2Proof
end

