-- ==== Sys2Proof/Machine/State.lean ====
section
/-! DEFINITION. The state of the core (R15), its stops (R118), the reasons a step has no next state, and reset (R33). -/

namespace Sys2Proof.Machine

/-- The register file: eight 32-bit registers (R16, R17). -/
structure Regs where
  eax : Word
  ecx : Word
  edx : Word
  ebx : Word
  esp : Word
  ebp : Word
  esi : Word
  edi : Word
deriving DecidableEq, Repr

/-- The stops of R118. `eip` is the address of the opcode byte of the instruction that stopped, and for
`eipOutOfRange` the `pc` that is out of range. -/
inductive Stop where
  /-- `pc = 0` after an instruction (R72, R123). -/
  | normalEnd
  /-- An empty entry (`sub` is `none`) or an unsupported group variant (R119). -/
  | unimplementedOpcode (op : Byte) (sub : Option (BitVec 3)) (eip : Word)
  /-- A memory operand that needs a SIB byte (R120). -/
  | unimplementedAddressingMode (mod : BitVec 2) (rm : BitVec 3) (sib : Byte) (eip : Word)
  /-- An access that touches an address at or above `MEM_SIZE`; `addr` is its first address (R121). -/
  | outOfBoundsAccess (addr eip : Word)
  /-- A step that begins with `pc` at or above `MEM_SIZE` (R122). -/
  | eipOutOfRange (eip : Word)
deriving DecidableEq, Repr

/-- The run status (R31). -/
inductive Status where
  | running
  | halted (k : Stop)
deriving DecidableEq, Repr

/-- Memory as data: the bytes that are not `0x00`, at strictly rising addresses. An unlisted address reads as
`0x00`, the value R33 gives every byte outside the image at reset. -/
abbrev Memory := List Host.Cell

/-- Why a step has no next state. -/
inductive Fault where
  /-- Raised by `step`, and by nothing else, on a core that has already halted with the stop `k`: "a halted core
  has no further step" (R31, R124). Safe: the spec defines no step there. -/
  | halted (k : Stop)
deriving DecidableEq, Repr

/-- Why an instruction has no meaning. -/
inductive Refusal where
  /-- Raised by an arm of `exec` whose instruction is not modelled. Safe. No arm raises it. -/
  | notModelled (mnemonic : String)
  /-- Raised by `step` if the fetched bytes end inside an instruction. Safe. No state reaches it: the eleven
  bytes fetched hold every instruction. -/
  | starvedDecoder
deriving DecidableEq, Repr

/-- The architectural state `(x, pc, eflags, mem, status)` of R15, with the parameters of the launch beside it
(R6), which no step changes: log entry 1. -/
structure State where
  /-- `x[0..7]` (R16). -/
  x : Regs
  /-- EIP (R22). -/
  pc : Word
  /-- FLAGS (R25). -/
  eflags : Word
  /-- Memory (R30). -/
  mem : Memory
  /-- The run status (R31). -/
  status : Status
  /-- The parameters of this launch (R6). -/
  launch : Launch
deriving DecidableEq, Repr

/-- The state after reset of a launch, before its image is loaded (R33, R138). -/
def State.atLaunch (l : Launch) : State where
  x := { eax := 0, ecx := 0, edx := 0, ebx := 0, esp := l.esp0, ebp := 0, esi := 0, edi := 0 }
  pc := l.loadBase
  eflags := 0
  mem := []
  status := .running
  launch := l

/-- The state right after reset with the default parameters and nothing loaded (R33). -/
def State.reset : State := State.atLaunch Launch.standard

end Sys2Proof.Machine
end

