-- ==== Sys2Proof/Machine/Ops.lean ====
section
/-! DEFINITION. The named operations over memory, registers and `pc`, the stack primitives, and the one shared
way an instruction stops. -/

namespace Sys2Proof.Machine

/-! ### Memory as data -/

/-- The byte at an address; an unlisted address reads as `0x00` (R33). -/
def Memory.read (m : Memory) (a : Nat) : Byte :=
  match m with
  | [] => 0
  | (b, v) :: rest => if b = a then v else Memory.read rest a

/-- Every cell but those at an address. -/
def Memory.erase (m : Memory) (a : Nat) : Memory :=
  match m with
  | [] => []
  | (b, v) :: rest => if b = a then Memory.erase rest a else (b, v) :: Memory.erase rest a

/-- A new cell, in its place by address. -/
def Memory.insert (m : Memory) (a : Nat) (v : Byte) : Memory :=
  match m with
  | [] => [(a, v)]
  | (b, w) :: rest => if a < b then (a, v) :: (b, w) :: rest else (b, w) :: Memory.insert rest a v

/-- `mem[a] <- v`, keeping the canonical form: `0x00` is never listed. -/
def Memory.write (m : Memory) (a : Nat) (v : Byte) : Memory :=
  if v = 0 then m.erase a else (m.erase a).insert a v

/-- The canonical form: addresses strictly rising, no entry equal to what an unlisted address reads as. -/
def Memory.wf : Memory → Bool
  | [] => true
  | (a, v) :: rest => v != 0 && rest.all (fun c => decide (a < c.1)) && Memory.wf rest

/-- Every listed address is below a bound. -/
def Memory.below (m : Memory) (n : Nat) : Bool := m.all fun c => decide (c.1 < n)

/-- The four bytes at `a, a+1, a+2, a+3` modulo 2^32, little-endian (R37). -/
def Memory.word (m : Memory) (a : Word) : Word :=
  wordOf (m.read a.toNat) (m.read (a + 1).toNat) (m.read (a + 2).toNat) (m.read (a + 3).toNat)

/-- The four bytes at `a, a+1, a+2, a+3` modulo 2^32 become those of `v` (R37). -/
def Memory.storeWord (m : Memory) (a v : Word) : Memory :=
  (((m.write a.toNat (byteOf v 0)).write (a + 1).toNat (byteOf v 1)).write (a + 2).toNat (byteOf v 2)).write
    (a + 3).toNat (byteOf v 3)

/-- Successive bytes stored from an address up. -/
def Memory.loadBytes (m : Memory) (a : Nat) (bs : List Byte) : Memory :=
  match bs with
  | [] => m
  | b :: rest => Memory.loadBytes (m.write a b) (a + 1) rest

/-! ### Stops -/

/-- What a `raise` of the spec's pseudocode names (R11): a fatal stop less its `eip`. -/
inductive Raise where
  | unimplementedOpcode (op : Byte) (sub : Option (BitVec 3))
  | unimplementedAddressingMode (mod : BitVec 2) (rm : BitVec 3) (sib : Byte)
  | outOfBoundsAccess (addr : Word)
deriving DecidableEq, Repr

/-- The stop a `raise` ends in, for the instruction at `eip` (R118). -/
def Raise.stop (r : Raise) (eip : Word) : Stop :=
  match r with
  | .unimplementedOpcode op sub => .unimplementedOpcode op sub eip
  | .unimplementedAddressingMode mod rm sib => .unimplementedAddressingMode mod rm sib eip
  | .outOfBoundsAccess addr => .outOfBoundsAccess addr eip

/-- The core halts with the stop `k`: only `status` changes (R31, R125). -/
def State.halt (s : State) (k : Stop) : State := { s with status := .halted k }

/-- Taking a fatal stop, the only exception mechanism of the core (R124, R125, R128): `s` is the state before the
instruction, so nothing the instruction did survives; `pc` stays at its opcode byte. -/
def State.takeStop (s : State) (r : Raise) : State := s.halt (r.stop s.pc)

/-- Run the pseudocode of an instruction from `s`: its result, or on a `raise` the precise stop (R70). -/
def attempt (s : State) (r : Except Raise State) : Host.Outcome State Fault Refusal :=
  match r with
  | .ok t => .next t
  | .error e => .next (s.takeStop e)

/-- The test after a completed instruction: `pc = 0` ends the run normally (R70, R72). -/
def State.endTest (s : State) : State :=
  match s.status with
  | .running => if s.pc = 0 then s.halt .normalEnd else s
  | .halted _ => s

/-! ### Registers -/

/-- `x[r]` (R8). -/
def Regs.get (x : Regs) (r : Reg) : Word :=
  match r with
  | .eax => x.eax
  | .ecx => x.ecx
  | .edx => x.edx
  | .ebx => x.ebx
  | .esp => x.esp
  | .ebp => x.ebp
  | .esi => x.esi
  | .edi => x.edi

/-- `x[r] <- v` (R8, R17). -/
def Regs.set (x : Regs) (r : Reg) (v : Word) : Regs :=
  match r with
  | .eax => { x with eax := v }
  | .ecx => { x with ecx := v }
  | .edx => { x with edx := v }
  | .ebx => { x with ebx := v }
  | .esp => { x with esp := v }
  | .ebp => { x with ebp := v }
  | .esi => { x with esi := v }
  | .edi => { x with edi := v }

/-- Read a general register. -/
def State.reg (s : State) (r : Reg) : Word := s.x.get r

/-- Write a general register. -/
def State.setReg (s : State) (r : Reg) (v : Word) : State := { s with x := s.x.set r v }

/-- `readRegister8` (R19, R20); `none` for an index outside `0..7`, which R21 refuses. -/
def Regs.readRegister8 (x : Regs) (i : Nat) : Option Byte :=
  if i < 4 then some ((x.get (.ofBits (BitVec.ofNat 3 i))).extractLsb' 0 8)
  else if i < 8 then some ((x.get (.ofBits (BitVec.ofNat 3 (i - 4)))).extractLsb' 8 8)
  else none

/-- `writeRegister8` (R19, R20); `none` for an index outside `0..7`, which R21 refuses. -/
def Regs.writeRegister8 (x : Regs) (i : Nat) (v : Byte) : Option Regs :=
  if i < 4 then
    let r := Reg.ofBits (BitVec.ofNat 3 i)
    some (x.set r ((x.get r).extractLsb' 8 24 ++ v))
  else if i < 8 then
    let r := Reg.ofBits (BitVec.ofNat 3 (i - 4))
    some (x.set r ((x.get r).extractLsb' 16 16 ++ v ++ (x.get r).extractLsb' 0 8))
  else none

/-! ### The instruction pointer -/

/-- `pc <- v`. -/
def State.jump (s : State) (v : Word) : State := { s with pc := v }

/-- `pc <- pc + n` modulo 2^32 (R23, D10). -/
def State.advance (s : State) (n : Nat) : State := s.jump (s.pc + BitVec.ofNat 32 n)

/-! ### Memory access -/

/-- The address exists (R34). -/
def State.inBounds (s : State) (a : Word) : Bool := decide (a.toNat < s.launch.memSize)

/-- The four addresses of a 32-bit access exist, each modulo 2^32 (R38). -/
def State.inBounds4 (s : State) (a : Word) : Bool :=
  s.inBounds a && s.inBounds (a + 1) && s.inBounds (a + 2) && s.inBounds (a + 3)

/-- `MemRead(a, 1)` (R36). -/
def State.memRead8 (s : State) (a : Word) : Except Raise Byte :=
  if s.inBounds a then .ok (s.mem.read a.toNat) else .error (.outOfBoundsAccess a)

/-- `MemRead(a, 4)` (R37, R38). -/
def State.memRead32 (s : State) (a : Word) : Except Raise Word :=
  if s.inBounds4 a then .ok (s.mem.word a) else .error (.outOfBoundsAccess a)

/-- `MemWrite(a, 1, v)` (R37, R38). No instruction uses it (R41). -/
def State.memWrite8 (s : State) (a : Word) (v : Byte) : Except Raise State :=
  if s.inBounds a then .ok { s with mem := s.mem.write a.toNat v } else .error (.outOfBoundsAccess a)

/-- `MemWrite(a, 4, v)` (R37, R38). -/
def State.memWrite32 (s : State) (a v : Word) : Except Raise State :=
  if s.inBounds4 a then .ok { s with mem := s.mem.storeWord a v } else .error (.outOfBoundsAccess a)

/-! ### Stack primitives -/

/-- `Push32(v)` (R44). -/
def State.push32 (s : State) (v : Word) : Except Raise State := do
  let a := s.reg .esp - 4
  let t ← s.memWrite32 a v
  .ok (t.setReg .esp a)

/-- `Pop32()` (R45): the popped word and the state with `ESP` incremented. -/
def State.pop32 (s : State) : Except Raise (Word × State) := do
  let v ← s.memRead32 (s.reg .esp)
  .ok (v, s.setReg .esp (s.reg .esp + 4))

/-! ### Instruction fetch -/

/-- `FetchU8(k)` (R10). A meaning uses it for its `raise`: the byte is already a field of the instruction. -/
def State.fetchU8 (s : State) (k : Nat) : Except Raise Byte := s.memRead8 (s.pc + BitVec.ofNat 32 k)

/-- `Fetch32(k)` (R10). -/
def State.fetch32 (s : State) (k : Nat) : Except Raise Word := s.memRead32 (s.pc + BitVec.ofNat 32 k)

end Sys2Proof.Machine
end

