-- ==== Sys2Proof/Machine/Operands.lean ====
section
/-! DEFINITION. Operand forms: the fetch of the ModRM bytes, effective addresses, and `r/m32` operands. -/

namespace Sys2Proof.Machine

/-- The fetches of `DecodeModRM` in their order, the ModRM byte at `pc + 1` (R54). -/
def State.fetchModRM (s : State) (rm : RM) : Except Raise Unit := do
  let _ ← s.fetchU8 1
  match rm with
  | .reg _ => .ok ()
  | .mem (.ind _) => .ok ()
  | .mem (.abs _) => do
    let _ ← s.fetch32 2
    .ok ()
  | .mem (.disp8 _ _) => do
    let _ ← s.fetchU8 2
    .ok ()
  | .mem (.disp32 _ _) => do
    let _ ← s.fetch32 2
    .ok ()
  | .mem (.sib _) => do
    let _ ← s.fetchU8 2
    .ok ()
  | .mem (.sibDisp8 _ _) => do
    let _ ← s.fetchU8 2
    let _ ← s.fetchU8 3
    .ok ()
  | .mem (.sibDisp32 _ _) => do
    let _ ← s.fetchU8 2
    let _ ← s.fetch32 3
    .ok ()

/-- `EA(m)` (R55). -/
def State.ea (s : State) (m : MemForm) : Except Raise Word :=
  match m with
  | .ind b => .ok (s.reg b)
  | .abs d => .ok d
  | .disp8 b d => .ok (s.reg b + sext32 d)
  | .disp32 b d => .ok (s.reg b + d)
  | .sib b => .error (.unimplementedAddressingMode 0 4 b)
  | .sibDisp8 b _ => .error (.unimplementedAddressingMode 1 4 b)
  | .sibDisp32 b _ => .error (.unimplementedAddressingMode 2 4 b)

/-- `ReadRM32(m)` (R57). -/
def State.readRM32 (s : State) (rm : RM) : Except Raise Word :=
  match rm with
  | .reg r => .ok (s.reg r)
  | .mem m => do
    let a ← s.ea m
    s.memRead32 a

/-- `WriteRM32(m, v)` (R58). -/
def State.writeRM32 (s : State) (rm : RM) (v : Word) : Except Raise State :=
  match rm with
  | .reg r => .ok (s.setReg r v)
  | .mem m => do
    let a ← s.ea m
    s.memWrite32 a v

/-- The extension of the `PUSH imm8` byte, by the launch's parameter (R61, R98, D12). -/
def State.extendPush (s : State) (b : Byte) : Word :=
  match s.launch.pushImm8Extend with
  | .sign => sext32 b
  | .zero => zext32 b

/-- The target of a relative transfer from the instruction at `pc` of length `n`: `pc + n + d` modulo 2^32 (R103). -/
def State.target (s : State) (n : Nat) (d : Word) : Word := s.pc + d + BitVec.ofNat 32 n

end Sys2Proof.Machine
end

