-- ==== Sys2Proof/Machine/Cycle.lean ====
section
/-! DEFINITION. The parts of the instruction cycle around a meaning (30_encoding.md R70): the bytes the decoder is
shown, the rejections, and the end test. -/

namespace Sys2Proof.Machine

/-- A byte the decoder is shown: memory's, or a placeholder past the end of memory. An instruction with a
placeholder in it stops when it fetches that byte (R39), before it uses its value: log entry 6. -/
def State.peek (s : State) (a : Word) : Byte := if s.inBounds a then s.mem.read a.toNat else 0

/-- The bytes from `pc` on that the decoder is shown, enough for the longest instruction (R50). -/
def State.window (s : State) : List Byte :=
  (List.range maxLength).map fun k => s.peek (s.pc + BitVec.ofNat 32 k)

/-- What the step does when the bytes at `pc` are no instruction of the subset (R67, R68, R86, R88). A group
opcode's ModRM bytes are fetched before its sub-opcode is checked. -/
def State.reject (s : State) (e : DecodeError) : Host.Outcome State Fault Refusal :=
  match e with
  | .truncated => .refused .starvedDecoder
  | .emptyEntry op => attempt s (.error (.unimplementedOpcode op none))
  | .groupVariant op sub rm =>
    attempt s do
      s.fetchModRM rm
      .error (.unimplementedOpcode op (some sub))

/-- The end test, on what an instruction answered. -/
def afterExec (o : Host.Outcome State Fault Refusal) : Host.Outcome State Fault Refusal :=
  match o with
  | .next t => .next t.endTest
  | .fault f => .fault f
  | .refused r => .refused r

/-- Bytes of code stored from `pc` up, modulo 2^32, where memory exists. -/
def Memory.storeCode (m : Memory) (memSize : Nat) (pc : Word) (bs : List Byte) : Memory :=
  match bs with
  | [] => m
  | b :: rest =>
    Memory.storeCode (if pc.toNat < memSize then m.write pc.toNat b else m) memSize (pc + 1) rest

end Sys2Proof.Machine
end

