-- ==== Sys2Proof/Machine/Flags.lean ====
section
/-! DEFINITION. The flag engine: the four flags, `UpdateFlagsSub`, and the conditions that read them. -/

namespace Sys2Proof.Machine

/-- The four flags (R25). -/
inductive Flag where
  | cf | zf | sf | of
deriving DecidableEq, Repr

/-- The place of a flag in `eflags` (R25). -/
def Flag.bit : Flag → Nat
  | .cf => 0
  | .zf => 6
  | .sf => 7
  | .of => 11

/-- The bits of `eflags` that are flags: 0, 6, 7 and 11 (R25). -/
def flagMask : Word := 0x8C1

/-- A flag of a FLAGS word. -/
def getFlag (w : Word) (f : Flag) : Bool := w.getLsbD f.bit

/-- Set or clear one flag: "setting one flag changes only its own bit" (R25). -/
def putFlag (w : Word) (f : Flag) (b : Bool) : Word :=
  if b then w ||| (1#32 <<< f.bit) else w &&& ~~~(1#32 <<< f.bit)

/-- The widened difference `u64(v1) - u64(v2)` modulo 2^64 (R80). -/
def wideSub (v1 v2 : Word) : BitVec 64 := v1.setWidth 64 - v2.setWidth 64

/-- `CF` of R80: bit 32 of the widened difference. -/
def carrySub (v1 v2 : Word) : Bool := (wideSub v1 v2).getLsbD 32

/-- `ZF` of R80: the widened difference is 0. -/
def zeroSub (v1 v2 : Word) : Bool := wideSub v1 v2 == 0

/-- `SF` of R80: bit 31 of the low half. -/
def signSub (v1 v2 : Word) : Bool := ((wideSub v1 v2).extractLsb' 0 32).msb

/-- `OF` of R80: the operands' signs differ and the result's is not that of `v1`. -/
def overflowSub (v1 v2 : Word) : Bool :=
  v1.msb != v2.msb && ((wideSub v1 v2).extractLsb' 0 32).msb != v1.msb

/-- The FLAGS word `UpdateFlagsSub(v1, v2)` leaves: all four flags written, every other bit kept (R80). -/
def subFlags (w v1 v2 : Word) : Word :=
  putFlag (putFlag (putFlag (putFlag w .cf (carrySub v1 v2)) .zf (zeroSub v1 v2)) .sf (signSub v1 v2)) .of
    (overflowSub v1 v2)

/-- `UpdateFlagsSub(v1, v2)` (R80), the only writer of the flags (R27). -/
def State.updateFlagsSub (s : State) (v1 v2 : Word) : State := { s with eflags := subFlags s.eflags v1 v2 }

/-! ### The conditions of the conditional jumps -/

/-- `JO` (R107). -/
def condO (w : Word) : Bool := getFlag w .of

/-- `JNO` (R108). -/
def condNO (w : Word) : Bool := !getFlag w .of

/-- `JC` (R109). -/
def condC (w : Word) : Bool := getFlag w .cf

/-- `JNC` (R110). -/
def condNC (w : Word) : Bool := !getFlag w .cf

/-- `JZ` (R111). -/
def condZ (w : Word) : Bool := getFlag w .zf

/-- `JNZ` (R112). -/
def condNZ (w : Word) : Bool := !getFlag w .zf

/-- `JS` (R113). -/
def condS (w : Word) : Bool := getFlag w .sf

/-- `JNS` (R114). -/
def condNS (w : Word) : Bool := !getFlag w .sf

/-- `JL` (R115). -/
def condL (w : Word) : Bool := getFlag w .sf != getFlag w .of

/-- `JLE` (R116). -/
def condLE (w : Word) : Bool := getFlag w .zf || (getFlag w .sf != getFlag w .of)

end Sys2Proof.Machine
end

