-- ==== Sys2Proof/Machine/Arith.lean ====
section
/-! DEFINITION. The arithmetic instructions (40_arithmetic.md). Each meaning follows the pseudocode of its rule
line by line; the `pc` advances are taken together at the end, since nothing between reads `pc` but the fetches,
whose offsets say where they read. -/

namespace Sys2Proof.Machine

/-- `ADD r/m32, r32` (R82). -/
def execAddRmR32 (rm : RM) (src : Reg) (s : State) : Host.Outcome State Fault Refusal :=
  attempt s do
    s.fetchModRM rm
    let v ← s.readRM32 rm
    let t ← s.writeRM32 rm (v + s.reg src)
    .ok (t.advance (1 + rm.length))

/-- `ADD r/m32, imm8` (R83): the operand is read before the immediate is fetched. -/
def execAddRmImm8 (rm : RM) (imm : Byte) (s : State) : Host.Outcome State Fault Refusal :=
  attempt s do
    s.fetchModRM rm
    let v ← s.readRM32 rm
    let _ ← s.fetchU8 (1 + rm.length)
    let t ← s.writeRM32 rm (v + sext32 imm)
    .ok (t.advance (2 + rm.length))

/-- `SUB r/m32, imm8` (R84). -/
def execSubRmImm8 (rm : RM) (imm : Byte) (s : State) : Host.Outcome State Fault Refusal :=
  attempt s do
    s.fetchModRM rm
    let v ← s.readRM32 rm
    let _ ← s.fetchU8 (1 + rm.length)
    let t ← s.writeRM32 rm (v - sext32 imm)
    .ok ((t.updateFlagsSub v (sext32 imm)).advance (2 + rm.length))

/-- `CMP r/m32, imm8` (R85). -/
def execCmpRmImm8 (rm : RM) (imm : Byte) (s : State) : Host.Outcome State Fault Refusal :=
  attempt s do
    s.fetchModRM rm
    let v ← s.readRM32 rm
    let _ ← s.fetchU8 (1 + rm.length)
    .ok ((s.updateFlagsSub v (sext32 imm)).advance (2 + rm.length))

/-- `INC r/m32` (R87). -/
def execIncRm (rm : RM) (s : State) : Host.Outcome State Fault Refusal :=
  attempt s do
    s.fetchModRM rm
    let v ← s.readRM32 rm
    let t ← s.writeRM32 rm (v + 1)
    .ok (t.advance (1 + rm.length))

/-- `CMP r32, r/m32` (R89): the `reg` operand is the minuend. -/
def execCmpR32Rm (lhs : Reg) (rm : RM) (s : State) : Host.Outcome State Fault Refusal :=
  attempt s do
    s.fetchModRM rm
    let v ← s.readRM32 rm
    .ok ((s.updateFlagsSub (s.reg lhs) v).advance (1 + rm.length))

end Sys2Proof.Machine
end

