-- ==== Sys2Proof/Machine/Control.lean ====
section
/-! DEFINITION. Jumps and conditional jumps (43_control_flow.md). -/

namespace Sys2Proof.Machine

/-- `JMP rel8` (R104). -/
def execJmpRel8 (rel : Byte) (s : State) : Host.Outcome State Fault Refusal :=
  attempt s do
    let _ ← s.fetchU8 1
    .ok (s.jump (s.target 2 (sext32 rel)))

/-- `JMP rel32` (R105). -/
def execJmpRel32 (rel : Word) (s : State) : Host.Outcome State Fault Refusal :=
  attempt s do
    let _ ← s.fetch32 1
    .ok (s.jump (s.target 5 rel))

/-- `Jcc(cond)` (R106): the displacement byte is fetched whether or not the jump is taken. -/
def jumpIf (taken : Bool) (rel : Byte) (s : State) : Host.Outcome State Fault Refusal :=
  attempt s do
    let _ ← s.fetchU8 1
    .ok (if taken then s.jump (s.target 2 (sext32 rel)) else s.advance 2)

/-- `JO rel8` (R107). -/
def execJo (rel : Byte) (s : State) : Host.Outcome State Fault Refusal :=
  jumpIf (condO s.eflags) rel s

/-- `JNO rel8` (R108). -/
def execJno (rel : Byte) (s : State) : Host.Outcome State Fault Refusal :=
  jumpIf (condNO s.eflags) rel s

/-- `JC rel8` (R109). -/
def execJc (rel : Byte) (s : State) : Host.Outcome State Fault Refusal :=
  jumpIf (condC s.eflags) rel s

/-- `JNC rel8` (R110). -/
def execJnc (rel : Byte) (s : State) : Host.Outcome State Fault Refusal :=
  jumpIf (condNC s.eflags) rel s

/-- `JZ rel8` (R111). -/
def execJz (rel : Byte) (s : State) : Host.Outcome State Fault Refusal :=
  jumpIf (condZ s.eflags) rel s

/-- `JNZ rel8` (R112). -/
def execJnz (rel : Byte) (s : State) : Host.Outcome State Fault Refusal :=
  jumpIf (condNZ s.eflags) rel s

/-- `JS rel8` (R113). -/
def execJs (rel : Byte) (s : State) : Host.Outcome State Fault Refusal :=
  jumpIf (condS s.eflags) rel s

/-- `JNS rel8` (R114). -/
def execJns (rel : Byte) (s : State) : Host.Outcome State Fault Refusal :=
  jumpIf (condNS s.eflags) rel s

/-- `JL rel8` (R115). -/
def execJl (rel : Byte) (s : State) : Host.Outcome State Fault Refusal :=
  jumpIf (condL s.eflags) rel s

/-- `JLE rel8` (R116). -/
def execJle (rel : Byte) (s : State) : Host.Outcome State Fault Refusal :=
  jumpIf (condLE s.eflags) rel s

end Sys2Proof.Machine
end

