-- ==== Sys2Proof/Machine/DataMove.lean ====
section
/-! DEFINITION. The data movement instructions (41_data_movement.md). -/

namespace Sys2Proof.Machine

/-- `MOV r/m32, r32` (R91). -/
def execMovRmR32 (rm : RM) (src : Reg) (s : State) : Host.Outcome State Fault Refusal :=
  attempt s do
    s.fetchModRM rm
    let t ← s.writeRM32 rm (s.reg src)
    .ok (t.advance (1 + rm.length))

/-- `MOV r32, r/m32` (R92). -/
def execMovR32Rm (dst : Reg) (rm : RM) (s : State) : Host.Outcome State Fault Refusal :=
  attempt s do
    s.fetchModRM rm
    let v ← s.readRM32 rm
    .ok ((s.setReg dst v).advance (1 + rm.length))

/-- `MOV r32, imm32` (R93). -/
def execMovR32Imm32 (dst : Reg) (imm : Word) (s : State) : Host.Outcome State Fault Refusal :=
  attempt s do
    let _ ← s.fetchU8 0
    let _ ← s.fetch32 1
    .ok ((s.setReg dst imm).advance 5)

/-- `MOV r/m32, imm32` (R94): the immediate is fetched before the operand's address is computed. The `reg` field
is not examined (R64, D13). -/
def execMovRmImm32 (rm : RM) (imm : Word) (s : State) : Host.Outcome State Fault Refusal :=
  attempt s do
    s.fetchModRM rm
    let _ ← s.fetch32 (1 + rm.length)
    let t ← s.writeRM32 rm imm
    .ok (t.advance (5 + rm.length))

end Sys2Proof.Machine
end

