-- ==== Sys2Proof/Machine/Stack.lean ====
section
/-! DEFINITION. The stack, call and return instructions (42_stack.md). -/

namespace Sys2Proof.Machine

/-- `PUSH r32` (R95): the value is read before `ESP` changes. -/
def execPushR32 (r : Reg) (s : State) : Host.Outcome State Fault Refusal :=
  attempt s do
    let _ ← s.fetchU8 0
    let t ← s.push32 (s.reg r)
    .ok (t.advance 1)

/-- `POP r32` (R96): the register is written after `ESP`. -/
def execPopR32 (r : Reg) (s : State) : Host.Outcome State Fault Refusal :=
  attempt s do
    let _ ← s.fetchU8 0
    let (v, t) ← s.pop32
    .ok ((t.setReg r v).advance 1)

/-- `PUSH imm32` (R97). -/
def execPushImm32 (imm : Word) (s : State) : Host.Outcome State Fault Refusal :=
  attempt s do
    let _ ← s.fetch32 1
    let t ← s.push32 imm
    .ok (t.advance 5)

/-- `PUSH imm8` (R98). -/
def execPushImm8 (imm : Byte) (s : State) : Host.Outcome State Fault Refusal :=
  attempt s do
    let _ ← s.fetchU8 1
    let t ← s.push32 (s.extendPush imm)
    .ok (t.advance 2)

/-- `CALL rel32` (R99). -/
def execCallRel32 (rel : Word) (s : State) : Host.Outcome State Fault Refusal :=
  attempt s do
    let _ ← s.fetch32 1
    let t ← s.push32 (s.pc + 5)
    .ok (t.jump (s.target 5 rel))

/-- `RET` (R100). -/
def execRet (s : State) : Host.Outcome State Fault Refusal :=
  attempt s do
    let (v, t) ← s.pop32
    .ok (t.jump v)

/-- `LEAVE` (R101). -/
def execLeave (s : State) : Host.Outcome State Fault Refusal :=
  attempt s do
    let (v, t) ← (s.setReg .esp (s.reg .ebp)).pop32
    .ok ((t.setReg .ebp v).advance 1)

end Sys2Proof.Machine
end

