-- ==== Sys2Proof/Machine/Dispatch.lean ====
section
/-! DEFINITION. Dispatch: one arm per instruction, each one call of its meaning. -/

namespace Sys2Proof.Machine

/-- Execute a decoded instruction that stands at `pc` (R70): its effect, or its precise stop. -/
def exec (i : Instr) (s : State) : Host.Outcome State Fault Refusal :=
  match i with
  | .addRmR32 rm src => Sys2Proof.Machine.execAddRmR32 rm src s
  | .cmpR32Rm lhs rm => Sys2Proof.Machine.execCmpR32Rm lhs rm s
  | .pushR32 r => Sys2Proof.Machine.execPushR32 r s
  | .popR32 r => Sys2Proof.Machine.execPopR32 r s
  | .pushImm32 imm => Sys2Proof.Machine.execPushImm32 imm s
  | .pushImm8 imm => Sys2Proof.Machine.execPushImm8 imm s
  | .jo rel => Sys2Proof.Machine.execJo rel s
  | .jno rel => Sys2Proof.Machine.execJno rel s
  | .jc rel => Sys2Proof.Machine.execJc rel s
  | .jnc rel => Sys2Proof.Machine.execJnc rel s
  | .jz rel => Sys2Proof.Machine.execJz rel s
  | .jnz rel => Sys2Proof.Machine.execJnz rel s
  | .js rel => Sys2Proof.Machine.execJs rel s
  | .jns rel => Sys2Proof.Machine.execJns rel s
  | .jl rel => Sys2Proof.Machine.execJl rel s
  | .jle rel => Sys2Proof.Machine.execJle rel s
  | .addRmImm8 rm imm => Sys2Proof.Machine.execAddRmImm8 rm imm s
  | .subRmImm8 rm imm => Sys2Proof.Machine.execSubRmImm8 rm imm s
  | .cmpRmImm8 rm imm => Sys2Proof.Machine.execCmpRmImm8 rm imm s
  | .movRmR32 rm src => Sys2Proof.Machine.execMovRmR32 rm src s
  | .movR32Rm dst rm => Sys2Proof.Machine.execMovR32Rm dst rm s
  | .movR32Imm32 dst imm => Sys2Proof.Machine.execMovR32Imm32 dst imm s
  | .ret => Sys2Proof.Machine.execRet s
  | .movRmImm32 _ rm imm => Sys2Proof.Machine.execMovRmImm32 rm imm s
  | .leave => Sys2Proof.Machine.execLeave s
  | .callRel32 rel => Sys2Proof.Machine.execCallRel32 rel s
  | .jmpRel32 rel => Sys2Proof.Machine.execJmpRel32 rel s
  | .jmpRel8 rel => Sys2Proof.Machine.execJmpRel8 rel s
  | .incRm rm => Sys2Proof.Machine.execIncRm rm s

end Sys2Proof.Machine
end

