-- ==== Sys2Proof/Machine/Step.lean ====
section
/-! DEFINITION. One step of the core (30_encoding.md R70). -/

namespace Sys2Proof.Machine

/-- One step (R70): a halted core has none (R31, R124); `pc` at or above `MEM_SIZE` stops before any fetch (R71);
otherwise the instruction at `pc` runs and the end test follows (R72). -/
def step (s : State) : Host.Outcome State Fault Refusal :=
  match s.status with
  | .halted k => .fault (.halted k)
  | .running =>
    if s.inBounds s.pc then
      match decode s.window with
      | .ok (i, _) => afterExec (exec i s)
      | .error e => s.reject e
    else .next (s.halt (.eipOutOfRange s.pc))

/-- `s` with an opcode-table word stored where `step` fetches its next instruction, at `pc` (R22, R39). Only
memory changes; the step runs it when the core is running with `pc` in memory, as after reset. -/
def State.withFetchWord (s : State) (nbits w : Nat) : State :=
  { s with mem := s.mem.storeCode s.launch.memSize s.pc (tableBytes nbits w) }

end Sys2Proof.Machine
end

