-- ==== Sys2Proof/Machine/Asm.lean ====
section
/-! DEFINITION. Assembler names and displacements (R75, R76). Nothing executes them; they say which instruction a
name stands for and which displacement reaches a target. -/

namespace Sys2Proof

/-- The mnemonic of an instruction (R66, R75). -/
def Instr.name : Instr → String
  | .addRmR32 _ _ => "ADD"
  | .cmpR32Rm _ _ => "CMP"
  | .pushR32 _ => "PUSH"
  | .popR32 _ => "POP"
  | .pushImm32 _ => "PUSH"
  | .pushImm8 _ => "PUSH"
  | .jo _ => "JO"
  | .jno _ => "JNO"
  | .jc _ => "JC"
  | .jnc _ => "JNC"
  | .jz _ => "JZ"
  | .jnz _ => "JNZ"
  | .js _ => "JS"
  | .jns _ => "JNS"
  | .jl _ => "JL"
  | .jle _ => "JLE"
  | .addRmImm8 _ _ => "ADD"
  | .subRmImm8 _ _ => "SUB"
  | .cmpRmImm8 _ _ => "CMP"
  | .movRmR32 _ _ => "MOV"
  | .movR32Rm _ _ => "MOV"
  | .movR32Imm32 _ _ => "MOV"
  | .ret => "RET"
  | .movRmImm32 _ _ _ => "MOV"
  | .leave => "LEAVE"
  | .callRel32 _ => "CALL"
  | .jmpRel32 _ => "JMP"
  | .jmpRel8 _ => "JMP"
  | .incRm _ => "INC"

/-- The other names of R76 for the same bytes, each with the opcode byte it selects. -/
def otherNames : List (String × Byte) :=
  [("JB", 0x72), ("JNAE", 0x72), ("JAE", 0x73), ("JNB", 0x73), ("JE", 0x74), ("JNE", 0x75), ("JNGE", 0x7C),
   ("JNG", 0x7E), ("JMP SHORT", 0xEB), ("JMP NEAR", 0xE9), ("PUSH BYTE", 0x6A), ("PUSH DWORD", 0x68)]

/-- The displacement an assembler computes for a target: `target - (address + length)` (R75). -/
def relTo (addr target : Word) (length : Nat) : Word := target - (addr + BitVec.ofNat 32 length)

end Sys2Proof
end

