-- ==== Sys2Proof/Machine/Boundary.lean ====
section
/-! DEFINITION. The core's boundary: construction and loading, the snapshot, and the port interface. The host uses
these before the first step and after the stop (R150); no instruction does. -/

namespace Sys2Proof.Machine

/-- Reset of a launch with its image loaded (R138, R141). `none` where the parameters are not those R6 allows or
the image does not fit, which is a loader error outside the core (U12, D28). -/
def State.construct (l : Launch) (image : List Byte) : Option State :=
  if l.legal && l.fits image.length then
    let s := State.atLaunch l
    some { s with mem := s.mem.loadBytes l.loadBase.toNat image }
  else none

/-- What the snapshot exposes: the registers, EIP, the flags and the status (R134). -/
structure Snapshot where
  x : Regs
  eip : Word
  eflags : Word
  status : Status
deriving DecidableEq, Repr

/-- The read-only snapshot (R134). -/
def State.snapshot (s : State) : Snapshot := { x := s.x, eip := s.pc, eflags := s.eflags, status := s.status }

/-- The code of a stop (R118, D16). -/
def Stop.code : Stop → Nat
  | .normalEnd => 0
  | .unimplementedOpcode _ _ _ => 1
  | .unimplementedAddressingMode _ _ _ _ => 2
  | .outOfBoundsAccess _ _ => 3
  | .eipOutOfRange _ => 4

/-- The three fatal kinds of R118. -/
def Stop.fatal : Stop → Bool
  | .normalEnd => false
  | .unimplementedOpcode _ _ _ => true
  | .unimplementedAddressingMode _ _ _ _ => true
  | .outOfBoundsAccess _ _ => true
  | .eipOutOfRange _ => false

/-! ### Ports -/

/-- The serial console's port (R133). -/
def consolePort : Port := 0x03F8

/-- What `portIn8` answers: a byte, or that the caller is suspended until the host supplies one (R133). -/
inductive PortAnswer where
  | suspended
  | value (b : Byte)
deriving DecidableEq, Repr

/-- `portIn8(port)` (R132, R133), the `n`-th port read of the run, with the byte the host has supplied, if any.
An unwired port answers any value: `Config.unwiredPort` has no body. -/
def portIn8 (n : Nat) (port : Port) (supplied : Option Byte) : PortAnswer :=
  if port = consolePort then
    match supplied with
    | some b => .value b
    | none => .suspended
  else .value (Config.unwiredPort n port)

/-- `portOut8(port, v)` (R132, R133): the byte handed to the host, if any. -/
def portOut8 (port : Port) (v : Byte) : Option Byte := if port = consolePort then some v else none

end Sys2Proof.Machine
end

