-- ==== Sys2Proof/Safety.lean ====
section
/-! DEFINITION. The terms claims are made in: what an instruction may write, when its bytes are in memory, the
invariant of the state, and how a run ends. -/

namespace Sys2Proof.Machine

/-! ### What an instruction may write -/

/-- The register an `r/m32` destination writes: the `rm` register when `mod = 3`, none otherwise (R18). -/
def rmWritten : RM → List Reg
  | .reg r => [r]
  | .mem _ => []

/-- The general registers an instruction may write (R18). -/
def writtenRegs : Instr → List Reg
  | .addRmR32 rm _ => rmWritten rm
  | .addRmImm8 rm _ => rmWritten rm
  | .subRmImm8 rm _ => rmWritten rm
  | .incRm rm => rmWritten rm
  | .movRmR32 rm _ => rmWritten rm
  | .movRmImm32 _ rm _ => rmWritten rm
  | .movR32Rm dst _ => [dst]
  | .movR32Imm32 dst _ => [dst]
  | .popR32 r => [r, .esp]
  | .pushR32 _ => [.esp]
  | .pushImm32 _ => [.esp]
  | .pushImm8 _ => [.esp]
  | .callRel32 _ => [.esp]
  | .ret => [.esp]
  | .leave => [.esp, .ebp]
  | .cmpR32Rm _ _ => []
  | .cmpRmImm8 _ _ => []
  | .jo _ => []
  | .jno _ => []
  | .jc _ => []
  | .jnc _ => []
  | .jz _ => []
  | .jnz _ => []
  | .js _ => []
  | .jns _ => []
  | .jl _ => []
  | .jle _ => []
  | .jmpRel32 _ => []
  | .jmpRel8 _ => []

/-- The instructions that write the flags (R27). -/
def writesFlags : Instr → Bool
  | .subRmImm8 _ _ => true
  | .cmpRmImm8 _ _ => true
  | .cmpR32Rm _ _ => true
  | .addRmR32 _ _ => false
  | .addRmImm8 _ _ => false
  | .incRm _ => false
  | .movRmR32 _ _ => false
  | .movRmImm32 _ _ _ => false
  | .movR32Rm _ _ => false
  | .movR32Imm32 _ _ => false
  | .popR32 _ => false
  | .pushR32 _ => false
  | .pushImm32 _ => false
  | .pushImm8 _ => false
  | .callRel32 _ => false
  | .ret => false
  | .leave => false
  | .jo _ => false
  | .jno _ => false
  | .jc _ => false
  | .jnc _ => false
  | .jz _ => false
  | .jnz _ => false
  | .js _ => false
  | .jns _ => false
  | .jl _ => false
  | .jle _ => false
  | .jmpRel32 _ => false
  | .jmpRel8 _ => false

/-- The address an `r/m32` destination stores to: its effective address; none for a register or a form without
one. -/
def State.rmStore (s : State) (rm : RM) : Option Word :=
  match rm with
  | .reg _ => none
  | .mem m => (s.ea m).toOption

/-- The address of the four bytes an instruction stores to, none for a form that stores nothing: the address its
meaning computes (R44, R58). -/
def storeAddr (i : Instr) (s : State) : Option Word :=
  match i with
  | .addRmR32 rm _ => s.rmStore rm
  | .addRmImm8 rm _ => s.rmStore rm
  | .subRmImm8 rm _ => s.rmStore rm
  | .incRm rm => s.rmStore rm
  | .movRmR32 rm _ => s.rmStore rm
  | .movRmImm32 _ rm _ => s.rmStore rm
  | .pushR32 _ => some (s.reg .esp - 4)
  | .pushImm32 _ => some (s.reg .esp - 4)
  | .pushImm8 _ => some (s.reg .esp - 4)
  | .callRel32 _ => some (s.reg .esp - 4)
  | .cmpR32Rm _ _ => none
  | .cmpRmImm8 _ _ => none
  | .movR32Rm _ _ => none
  | .movR32Imm32 _ _ => none
  | .popR32 _ => none
  | .ret => none
  | .leave => none
  | .jo _ => none
  | .jno _ => none
  | .jc _ => none
  | .jnc _ => none
  | .jz _ => none
  | .jnz _ => none
  | .js _ => none
  | .jns _ => none
  | .jl _ => none
  | .jle _ => none
  | .jmpRel32 _ => none
  | .jmpRel8 _ => none

/-- The address is one of the four bytes of the word at `a` (R37). -/
def inWord (a b : Word) : Bool := b == a || b == a + 1 || b == a + 2 || b == a + 3

/-! ### Bytes in memory -/

/-- The `n` bytes from `pc + k` on exist, each address modulo 2^32. -/
abbrev State.codeAt (s : State) (k n : Nat) : Prop := ∀ j < n, s.inBounds (s.pc + BitVec.ofNat 32 (k + j)) = true

/-- The ModRM bytes of the instruction at `pc` exist. -/
abbrev State.modRMIn (s : State) (rm : RM) : Prop := s.codeAt 1 rm.length

/-- The memory from `pc` on holds these bytes, all of them in memory. -/
abbrev State.holdsCode (s : State) (bs : List Byte) : Prop :=
  ∀ k (h : k < bs.length),
    s.inBounds (s.pc + BitVec.ofNat 32 k) = true ∧ s.mem.read (s.pc + BitVec.ofNat 32 k).toNat = bs[k]

/-! ### The invariant -/

/-- The stop a halted core records agrees with its `pc`: R72 for the normal end, R125 for the others. -/
def State.stopAgrees (s : State) : Bool :=
  match s.status with
  | .running => true
  | .halted .normalEnd => s.pc == 0
  | .halted (.unimplementedOpcode _ _ eip) => eip == s.pc
  | .halted (.unimplementedAddressingMode _ _ _ eip) => eip == s.pc
  | .halted (.outOfBoundsAccess _ eip) => eip == s.pc
  | .halted (.eipOutOfRange eip) => eip == s.pc && !s.inBounds eip

/-- The invariant of every state a run reaches: memory canonical and inside `MEM_SIZE` (R30, R34), the unused bits
of `eflags` 0 (R26), legal parameters (R6), and a stop that agrees with `pc`. -/
def State.inv (s : State) : Bool :=
  s.mem.wf && s.mem.below s.launch.memSize && (s.eflags &&& ~~~flagMask == 0) && s.launch.legal && s.stopAgrees

/-! ### Runs -/

/-- `n` steps from `s` reach `t` (R73). -/
def reaches (n : Nat) (s t : State) : Prop := Host.Core.run Sys2Proof.core n s = .next t

/-- The run from `s` ends with the stop `k`, in `t`: the first halted state (R149). -/
def endsIn (s : State) (k : Stop) (t : State) : Prop := (∃ n, reaches n s t) ∧ t.status = .halted k

/-- A safe run: it ends, and normally (R143, R144). -/
def endsNormally (s : State) : Prop := ∃ t, endsIn s .normalEnd t

end Sys2Proof.Machine
end

