-- ==== Sys2Proof/Certificates/Slice0/Obligations.lean ====
section
/-! DEFINITION. The statements for the provers. Each formalises rules of spec/, named in its docstring and in
OBLIGATIONS.json. -/

namespace Sys2Proof.Claims

open Sys2Proof.Machine

/-- The instruction halts the core with the stop `k`, and nothing else changes (R125). -/
def stops (i : Instr) (s : State) (k : Stop) : Prop := exec i s = .next { s with status := .halted k }

/-- The value of an `r/m32` operand: the register, or the word at its effective address where that is in memory
(R57). A form without an effective address, and an address out of bounds, have none. -/
def operand (s : State) (rm : RM) : Option Word :=
  match rm with
  | .reg r => some (s.x.get r)
  | .mem m =>
    match s.ea m with
    | .ok a => if s.inBounds4 a then some (s.mem.word a) else none
    | .error _ => none

/-- The state with an `r/m32` operand replaced: the register, or the four bytes at its effective address (R58). -/
def withOperand (s : State) (rm : RM) (v : Word) : State :=
  match rm with
  | .reg r => { s with x := s.x.set r v }
  | .mem m =>
    match s.ea m with
    | .ok a => { s with mem := s.mem.storeWord a v }
    | .error _ => s

/-- The stop of a memory operand that needs a SIB byte (R55, R120), for the instruction at `eip`. -/
def sibStop (m : MemForm) (eip : Word) : Option Stop :=
  match m with
  | .ind _ => none
  | .abs _ => none
  | .disp8 _ _ => none
  | .disp32 _ _ => none
  | .sib b => some (.unimplementedAddressingMode 0 4 b eip)
  | .sibDisp8 b _ => some (.unimplementedAddressingMode 1 4 b eip)
  | .sibDisp32 b _ => some (.unimplementedAddressingMode 2 4 b eip)

/-- A fetch of the ModRM bytes out of memory stops the instruction. -/
def fetchStops (i : Instr) (rm : RM) (s : State) : Prop :=
  ¬ s.modRMIn rm → ∃ a, s.fetchModRM rm = .error (.outOfBoundsAccess a) ∧ stops i s (.outOfBoundsAccess a s.pc)

/-- With the first `n` bytes after the opcode in memory, an operand that needs a SIB byte stops the instruction, and
so does one whose four bytes are not all in memory. -/
def operandStops (i : Instr) (rm : RM) (s : State) (n : Nat) : Prop :=
  s.codeAt 1 n → ∀ m, rm = .mem m →
    (∀ k, sibStop m s.pc = some k → stops i s k) ∧
    (∀ a, s.ea m = .ok a → s.inBounds4 a = false → stops i s (.outOfBoundsAccess a s.pc))

/-- The address `n` bytes after the opcode byte. -/
def after (s : State) (n : Nat) : Word := s.pc + BitVec.ofNat 32 n

/-- The word an instruction stores when it stores one (R44, R58), by the rule of the instruction: a form with a
register destination has it too, and puts it in the register. -/
def storedWord (i : Instr) (s : State) : Option Word :=
  match i with
  | .addRmR32 rm src => (operand s rm).map (· + s.x.get src)
  | .addRmImm8 rm imm => (operand s rm).map (· + imm.signExtend 32)
  | .subRmImm8 rm imm => (operand s rm).map (· - imm.signExtend 32)
  | .incRm rm => (operand s rm).map (· + 1)
  | .movRmR32 _ src => some (s.x.get src)
  | .movRmImm32 _ _ imm => some imm
  | .pushR32 r => some (s.x.get r)
  | .pushImm32 imm => some imm
  | .pushImm8 imm =>
    some (if s.launch.pushImm8Extend = .sign then imm.signExtend 32 else imm.setWidth 32)
  | .callRel32 _ => some (s.pc + 5)
  | .cmpR32Rm _ _ => none
  | .cmpRmImm8 _ _ => none
  | .movR32Rm _ _ => none
  | .movR32Imm32 _ _ => none
  | .popR32 _ => none
  | .ret => none
  | .leave => none
  | .jo _ => none
  | .jno _ => none
  | .jc _ => none
  | .jnc _ => none
  | .jz _ => none
  | .jnz _ => none
  | .js _ => none
  | .jns _ => none
  | .jl _ => none
  | .jle _ => none
  | .jmpRel32 _ => none
  | .jmpRel8 _ => none

/-- The opcode bytes of R66. -/
def registered : List Byte :=
  [0x01, 0x3B, 0x50, 0x51, 0x52, 0x53, 0x54, 0x55, 0x56, 0x57, 0x58, 0x59, 0x5A, 0x5B, 0x5C, 0x5D, 0x5E, 0x5F] ++
  [0x68, 0x6A, 0x70, 0x71, 0x72, 0x73, 0x74, 0x75, 0x78, 0x79, 0x7C, 0x7E, 0x83, 0x89, 0x8B] ++
  [0xB8, 0xB9, 0xBA, 0xBB, 0xBC, 0xBD, 0xBE, 0xBF, 0xC3, 0xC7, 0xC9, 0xE8, 0xE9, 0xEB, 0xFF]

/-- The instructions that leave `pc` at a computed target (R23). -/
def transfers : Instr → Bool
  | .jo _ => true
  | .jno _ => true
  | .jc _ => true
  | .jnc _ => true
  | .jz _ => true
  | .jnz _ => true
  | .js _ => true
  | .jns _ => true
  | .jl _ => true
  | .jle _ => true
  | .jmpRel8 _ => true
  | .jmpRel32 _ => true
  | .callRel32 _ => true
  | .ret => true
  | .addRmR32 _ _ => false
  | .addRmImm8 _ _ => false
  | .subRmImm8 _ _ => false
  | .cmpRmImm8 _ _ => false
  | .incRm _ => false
  | .cmpR32Rm _ _ => false
  | .movRmR32 _ _ => false
  | .movR32Rm _ _ => false
  | .movR32Imm32 _ _ => false
  | .movRmImm32 _ _ _ => false
  | .pushR32 _ => false
  | .popR32 _ => false
  | .pushImm32 _ => false
  | .pushImm8 _ => false
  | .leave => false

end Sys2Proof.Claims

open Sys2Proof Sys2Proof.Machine Sys2Proof.Claims

/-! ### Reset -/

/-- R33: what construction leaves, for every launch and image (the values of `pc`, `ESP`, `eflags` and memory are the
spec's decisions D3 to D6); it refuses exactly the parameters R6 excludes, and the images R141 does. Three things are
the model's choice: that the state holds the launch (log entry 1), that a refused construction answers `none`, and that
`State.reset` is the default launch with the empty image (log entry 5). -/
def Obligations.ResetState : Prop :=
  (∀ l image, (State.construct l image).isSome = true ↔
    4 ≤ l.memSize ∧ l.memSize ≤ 2 ^ 32 ∧ l.loadBase.toNat + image.length ≤ l.memSize) ∧
  (∀ l image s, State.construct l image = some s →
    (∀ r, s.x.get r = if r = .esp then l.esp0 else 0) ∧ s.pc = l.loadBase ∧ s.eflags = 0 ∧ s.status = .running ∧
    s.launch = l ∧
    (∀ k (h : k < image.length), s.mem.read (l.loadBase.toNat + k) = image[k]) ∧
    (∀ a, a < l.loadBase.toNat ∨ l.loadBase.toNat + image.length ≤ a → s.mem.read a = 0)) ∧
  State.construct Launch.standard [] = some State.reset ∧
  State.reset.pc = 0x7C00 ∧ State.reset.x.esp = 0x7C00 ∧ State.reset.launch.memSize = 0x100000

/-- The invariant holds at reset, with nothing loaded and with any image that fits. The model's choices in it are
that the state holds the launch (log entry 1) and that memory is a canonical list (log entry 10). -/
def Obligations.ResetMeetsInvariant : Prop :=
  State.reset.inv = true ∧ ∀ l image s, State.construct l image = some s → s.inv = true

/-! ### Registers -/

/-- From R17: a 32-bit write replaces all 32 bits of the register it names and of no other. -/
def Obligations.RegisterReadAfterWrite : Prop :=
  ∀ (s : State) (r q : Reg) (v : Word),
    ((s.setReg r v).reg r = v) ∧ (q ≠ r → (s.setReg r v).reg q = s.reg q)

/-- R19, R20, R21: the byte interface reads and writes bits 7..0 of register `i` for `i < 4`, bits 15..8 of register
`i - 4` for `4 <= i < 8`, leaves every other bit alone, and refuses every other index (R21, the
spec's decision D18); that the refusal answers `none` is the model's choice, log entry 12. -/
def Obligations.ByteRegisterInterface : Prop :=
  ∀ (x : Regs) (i : Nat) (v : Byte),
    (i < 4 → ∃ y, x.readRegister8 i = some ((x.get (.ofBits (BitVec.ofNat 3 i))).extractLsb' 0 8) ∧
      x.writeRegister8 i v = some y ∧
      ∀ (q : Reg) (n : Nat), n < 32 → (y.get q).getLsbD n =
        if q = .ofBits (BitVec.ofNat 3 i) ∧ n < 8 then v.getLsbD n else (x.get q).getLsbD n) ∧
    (4 ≤ i ∧ i < 8 → ∃ y, x.readRegister8 i = some ((x.get (.ofBits (BitVec.ofNat 3 (i - 4)))).extractLsb' 8 8) ∧
      x.writeRegister8 i v = some y ∧
      ∀ (q : Reg) (n : Nat), n < 32 → (y.get q).getLsbD n =
        if q = .ofBits (BitVec.ofNat 3 (i - 4)) ∧ 8 ≤ n ∧ n < 16 then v.getLsbD (n - 8) else (x.get q).getLsbD n) ∧
    (8 ≤ i → x.readRegister8 i = none ∧ x.writeRegister8 i v = none)

/-! ### Flags -/

/-- From R25: the places of the flags, and that setting one changes only its own bit. -/
def Obligations.FlagPlacesAndSetters : Prop :=
  ∀ (w : Word) (f : Flag) (b : Bool),
    getFlag w .cf = w.getLsbD 0 ∧ getFlag w .zf = w.getLsbD 6 ∧ getFlag w .sf = w.getLsbD 7 ∧
    getFlag w .of = w.getLsbD 11 ∧
    getFlag (putFlag w f b) f = b ∧ ∀ n, n < 32 → n ≠ f.bit → (putFlag w f b).getLsbD n = w.getLsbD n

/-- R80: the four flags `UpdateFlagsSub` writes, in the widened domain, and the bits it keeps. -/
def Obligations.UpdateFlagsSubWritesFourFlags : Prop :=
  ∀ (s : State) (v1 v2 : Word),
    let r64 : BitVec 64 := v1.setWidth 64 - v2.setWidth 64
    let w := (s.updateFlagsSub v1 v2).eflags
    w.getLsbD 0 = r64.getLsbD 32 ∧ (w.getLsbD 0 = true ↔ v1.toNat < v2.toNat) ∧
    (w.getLsbD 6 = true ↔ r64 = 0) ∧ w.getLsbD 7 = r64.getLsbD 31 ∧
    (w.getLsbD 11 = true ↔ v1.msb ≠ v2.msb ∧ r64.getLsbD 31 ≠ v1.msb) ∧
    (∀ n, n ≠ 0 → n ≠ 6 → n ≠ 7 → n ≠ 11 → w.getLsbD n = s.eflags.getLsbD n) ∧
    s.updateFlagsSub v1 v2 = { s with eflags := w }

/-- R81: what the flags say about the operands, unsigned and signed. The spec marks the rule "[derived: from rule
R80]". -/
def Obligations.FlagsDecideComparisons : Prop :=
  ∀ (s : State) (v1 v2 : Word),
    let w := (s.updateFlagsSub v1 v2).eflags
    (condC w = true ↔ v1.toNat < v2.toNat) ∧ (condZ w = true ↔ v1 = v2) ∧ (v1 = v2 ↔ v1 - v2 = 0) ∧
    (condO w = true ↔ v1.toInt - v2.toInt < -2 ^ 31 ∨ 2 ^ 31 ≤ v1.toInt - v2.toInt) ∧
    (condL w = true ↔ v1.toInt < v2.toInt) ∧ (condLE w = true ↔ v1.toInt ≤ v2.toInt)

/-! ### Memory -/

/-- R37: a 32-bit read assembles four bytes, least significant first; a 32-bit write stores them so and changes no
other byte; a byte write changes one byte. -/
def Obligations.MemoryIsLittleEndian : Prop :=
  (∀ (s : State) (a v : Word), s.memRead32 a = .ok v →
    ∀ j < 4, s.memRead8 (a + BitVec.ofNat 32 j) = .ok (v.extractLsb' (8 * j) 8)) ∧
  (∀ (s t : State) (a v : Word), s.memWrite32 a v = .ok t →
    t.memRead32 a = .ok v ∧
    (∀ j < 4, t.mem.read (a + BitVec.ofNat 32 j).toNat = v.extractLsb' (8 * j) 8) ∧
    (∀ n, (∀ j < 4, n ≠ (a + BitVec.ofNat 32 j).toNat) → t.mem.read n = s.mem.read n) ∧
    t = { s with mem := t.mem }) ∧
  (∀ (s t : State) (a : Word) (v : Byte), s.memWrite8 a v = .ok t →
    t.memRead8 a = .ok v ∧ (∀ n, n ≠ a.toNat → t.mem.read n = s.mem.read n) ∧ t = { s with mem := t.mem })

/-- R36, R38: a 1-byte access checks its address, a 32-bit access checks four addresses modulo 2^32, and the stop
names the first address of the access; no alignment is asked. -/
def Obligations.AccessesAreBoundsChecked : Prop :=
  ∀ (s : State) (a v : Word) (b : Byte),
    (a.toNat < s.launch.memSize → s.memRead8 a = .ok (s.mem.read a.toNat) ∧ ∃ t, s.memWrite8 a b = .ok t) ∧
    (s.launch.memSize ≤ a.toNat →
      s.memRead8 a = .error (.outOfBoundsAccess a) ∧ s.memWrite8 a b = .error (.outOfBoundsAccess a)) ∧
    ((∀ j < 4, (a + BitVec.ofNat 32 j).toNat < s.launch.memSize) →
      (∃ u, s.memRead32 a = .ok u) ∧ ∃ t, s.memWrite32 a v = .ok t) ∧
    (∀ j < 4, s.launch.memSize ≤ (a + BitVec.ofNat 32 j).toNat →
      s.memRead32 a = .error (.outOfBoundsAccess a) ∧ s.memWrite32 a v = .error (.outOfBoundsAccess a))

/-- R44, R45: what a push and a pop do, where each raises, and that a matching pop gives the pushed word back and
restores `ESP`. -/
def Obligations.PopAfterPushRestores : Prop :=
  ∀ (s : State) (v : Word),
    (s.inBounds4 (s.x.esp - 4) = true →
      ∃ t, s.push32 v = .ok t ∧ t.mem.word (s.x.esp - 4) = v ∧
        t = { s with x := { s.x with esp := s.x.esp - 4 }, mem := s.mem.storeWord (s.x.esp - 4) v } ∧
        t.pop32 = .ok (v, { t with x := s.x })) ∧
    (s.inBounds4 (s.x.esp - 4) = false → s.push32 v = .error (.outOfBoundsAccess (s.x.esp - 4))) ∧
    (s.inBounds4 s.x.esp = true →
      s.pop32 = .ok (s.mem.word s.x.esp, { s with x := { s.x with esp := s.x.esp + 4 } })) ∧
    (s.inBounds4 s.x.esp = false → s.pop32 = .error (.outOfBoundsAccess s.x.esp))

/-! ### Decoding -/

/-- Decoding the bytes of a well-formed instruction gives it back and leaves the bytes after it. -/
def Obligations.DecodeOfEncode : Prop :=
  ∀ (i : Instr) (rest : List Byte), i.wellFormed = true → decode (encode i ++ rest) = .ok (i, rest)

/-- Every instruction the decoder reads is well formed, and its bytes are those the encoder writes. -/
def Obligations.EncodeOfDecode : Prop :=
  ∀ (bs rest : List Byte) (i : Instr), decode bs = .ok (i, rest) → i.wellFormed = true ∧ bs = encode i ++ rest

/-- Words written out from the encodings of R66, one or more per family. -/
def Obligations.SpecWordsDecode : Prop :=
  decode [0x01, 0xC8] = .ok (.addRmR32 (.reg .eax) .ecx, []) ∧
  decode [0x83, 0xEB, 0x03] = .ok (.subRmImm8 (.reg .ebx) 3, []) ∧
  decode [0x8B, 0x45, 0xFC] = .ok (.movR32Rm .eax (.mem (.disp8 .ebp 0xFC)), []) ∧
  decode [0xC7, 0x05, 0x00, 0x80, 0x00, 0x00, 0xEF, 0xBE, 0xAD, 0xDE] =
    .ok (.movRmImm32 0 (.mem (.abs 0x8000)) 0xDEADBEEF, []) ∧
  decode [0x58] = .ok (.popR32 .eax, []) ∧
  decode [0xE8, 0x05, 0x00, 0x00, 0x00] = .ok (.callRel32 5, []) ∧
  decode [0x75, 0xF9] = .ok (.jnz 0xF9, []) ∧
  decode [0xE9, 0xEA, 0x83, 0xFF, 0xFF] = .ok (.jmpRel32 0xFFFF83EA, [])

/-- The operand form and the bytes consumed, for every `mod`, `reg` and `rm`, and its address: the table of R56, which
the spec marks "[derived: from rules R54 and R55]". -/
def Obligations.ModRMOperandForms : Prop :=
  ∀ (reg rm : BitVec 3) (sib : Byte) (d8 : Byte) (d32 : Word) (rest : List Byte) (s : State),
    let r := Reg.ofBits rm
    takeModRM (modRMByte 3 reg rm :: rest) = .ok ((reg, .reg r), rest) ∧
    (rm ≠ 4 → rm ≠ 5 → takeModRM (modRMByte 0 reg rm :: rest) = .ok ((reg, .mem (.ind r)), rest)) ∧
    (rm = 5 → takeModRM (modRMByte 0 reg rm :: wordBytes d32 ++ rest) = .ok ((reg, .mem (.abs d32)), rest)) ∧
    (rm ≠ 4 → takeModRM (modRMByte 1 reg rm :: d8 :: rest) = .ok ((reg, .mem (.disp8 r d8)), rest)) ∧
    (rm ≠ 4 → takeModRM (modRMByte 2 reg rm :: wordBytes d32 ++ rest) = .ok ((reg, .mem (.disp32 r d32)), rest)) ∧
    (rm = 4 → takeModRM (modRMByte 0 reg rm :: sib :: rest) = .ok ((reg, .mem (.sib sib)), rest) ∧
      takeModRM (modRMByte 1 reg rm :: sib :: d8 :: rest) = .ok ((reg, .mem (.sibDisp8 sib d8)), rest) ∧
      takeModRM (modRMByte 2 reg rm :: sib :: wordBytes d32 ++ rest) =
        .ok ((reg, .mem (.sibDisp32 sib d32)), rest)) ∧
    s.ea (.ind r) = .ok (s.x.get r) ∧ s.ea (.abs d32) = .ok d32 ∧
    s.ea (.disp8 r d8) = .ok (s.x.get r + d8.signExtend 32) ∧ s.ea (.disp32 r d32) = .ok (s.x.get r + d32) ∧
    s.ea (.sib sib) = .error (.unimplementedAddressingMode 0 4 sib) ∧
    s.ea (.sibDisp8 sib d8) = .error (.unimplementedAddressingMode 1 4 sib) ∧
    s.ea (.sibDisp32 sib d32) = .error (.unimplementedAddressingMode 2 4 sib)

/-- R66, R67: the decoder rejects a first byte as an empty entry exactly when it is not one of the 48 of R66. -/
def Obligations.EmptyEntriesAreTheOtherBytes : Prop :=
  registered.length = 48 ∧
  ∀ (op : Byte) (rest : List Byte),
    decode (op :: rest) = .error (.emptyEntry op) ↔ op ∉ registered

/-- R54, R121: the fetches of the ModRM bytes stop at the first one that is not in memory, in the order ModRM byte,
SIB byte, displacement. -/
def Obligations.ModRMFetchOrder : Prop :=
  ∀ (s : State) (rm : RM) (e : Raise), s.fetchModRM rm = .error e →
    (s.inBounds (after s 1) = false ∧ e = .outOfBoundsAccess (after s 1)) ∨
    (s.inBounds (after s 1) = true ∧
      ∃ m, rm = .mem m ∧ (s.inBounds (after s 2) = false ∨ s.inBounds (after s 2) = true ∧ sibStop m 0 = none) ∧
        e = .outOfBoundsAccess (after s 2)) ∨
    (s.inBounds (after s 1) = true ∧ s.inBounds (after s 2) = true ∧
      ∃ m, rm = .mem m ∧ sibStop m 0 ≠ none ∧ e = .outOfBoundsAccess (after s 3))

/-- An instruction that completes has 1 to 10 bytes (R50, and the lengths of R69, derived there). -/
def Obligations.CompletedInstructionsAreAtMostTenBytes : Prop :=
  ∀ (i : Instr) (s t : State), s.status = .running → exec i s = .next t → t.status = .running →
    1 ≤ (encode i).length ∧ (encode i).length ≤ 10

/-! ### The instruction cycle -/

/-- R70, R72: a step runs the instruction the bytes at `pc` decode to, and then makes the end test. -/
def Obligations.StepRunsDecodedInstruction : Prop :=
  ∀ (s : State) (i : Instr) (rest : List Byte),
    s.status = .running → s.inBounds s.pc = true → decode s.window = .ok (i, rest) →
    step s = match exec i s with
      | .next t => .next (if t.status = .running ∧ t.pc = 0 then { t with status := .halted .normalEnd } else t)
      | .fault f => .fault f
      | .refused r => .refused r

/-- R70, R72: where memory at `pc` holds the bytes of a well-formed instruction, the step is that instruction's
effect and the end test. -/
def Obligations.StepRunsInstructionInMemory : Prop :=
  ∀ (s t : State) (i : Instr),
    s.status = .running → i.wellFormed = true → s.holdsCode (encode i) → exec i s = .next t →
    (t.status = .running → t.pc ≠ 0 → step s = .next t) ∧
    (t.status = .running → t.pc = 0 → step s = .next { t with status := .halted .normalEnd }) ∧
    (t.status ≠ .running → step s = .next t)

/-- A running core always has a next state, and a halted one has none (R31, R70, R124). That the missing step shows as
a fault naming the stop is the model's choice, log entry 4. -/
def Obligations.OnlyHaltedCoresHaveNoStep : Prop :=
  ∀ s : State, (s.status = .running → ∃ t, step s = .next t) ∧
    (∀ k, s.status = .halted k → step s = .fault (.halted k))

/-- R71, R122: a step that begins with `pc` at or above `MEM_SIZE` halts the core and changes nothing else. -/
def Obligations.EipOutOfRangeStops : Prop :=
  ∀ s : State, s.status = .running → s.launch.memSize ≤ s.pc.toNat →
    step s = .next { s with status := .halted (.eipOutOfRange s.pc) }

/-- R67, R119: a first byte with an empty entry halts the core and changes nothing else. -/
def Obligations.UnregisteredOpcodeStops : Prop :=
  ∀ (s : State) (op : Byte), s.status = .running → op ∉ registered → s.holdsCode [op] →
    step s = .next { s with status := .halted (.unimplementedOpcode op none s.pc) }

/-- R68, R86, R88: an unsupported sub-opcode of `83` or `FF` halts the core once its ModRM bytes are fetched, before
any operand is read. Where the SIB byte or a displacement byte is out of memory, the fetch of it is reported first, at
the first address of the access that raises (R121); and so is the ModRM byte itself, whatever the sub-opcode would be.
The hypotheses are about bytes that memory holds: no placeholder of log entry 6 is among them. -/
def Obligations.UnsupportedGroupVariantStops : Prop :=
  ∀ (s : State) (op : Byte), s.status = .running →
    (∀ (sub : BitVec 3) (rm : RM), rm.wellFormed = true →
      (op = 0x83 ∧ sub ≠ 0 ∧ sub ≠ 5 ∧ sub ≠ 7 ∨ op = 0xFF ∧ sub ≠ 0) →
      (s.holdsCode (op :: rm.encode sub) →
        step s = .next { s with status := .halted (.unimplementedOpcode op (some sub) s.pc) }) ∧
      (s.holdsCode ((op :: rm.encode sub).take 2) → ¬ s.modRMIn rm →
        ∃ a, s.fetchModRM rm = .error (.outOfBoundsAccess a) ∧
          step s = .next { s with status := .halted (.outOfBoundsAccess a s.pc) })) ∧
    (op = 0x83 ∨ op = 0xFF → s.holdsCode [op] → s.inBounds (after s 1) = false →
      step s = .next { s with status := .halted (.outOfBoundsAccess (after s 1) s.pc) })

/-- R125: a step that ends in any stop but the normal end changes nothing but the status. -/
def Obligations.FatalStopsArePrecise : Prop :=
  ∀ (s t : State) (k : Stop), step s = .next t → t.status = .halted k → k ≠ .normalEnd →
    t = { s with status := .halted k } ∧
    (k = .eipOutOfRange s.pc ∨ (∃ op sub, k = .unimplementedOpcode op sub s.pc) ∨
      (∃ mod rm sib, k = .unimplementedAddressingMode mod rm sib s.pc) ∨ ∃ a, k = .outOfBoundsAccess a s.pc)

/-- R72, R123: a run ends normally only after an instruction that completed and left `pc` at 0, with all its
effects. -/
def Obligations.NormalEndMeansZeroPc : Prop :=
  ∀ s t : State, step s = .next t → t.status = .halted .normalEnd →
    t.pc = 0 ∧ ∃ i rest u, decode s.window = .ok (i, rest) ∧ exec i s = .next u ∧ u.status = .running ∧
      t = { u with status := .halted .normalEnd }

/-- From R39 and R126: an instruction with a byte after its opcode out of memory halts with a fatal stop; nothing it
does depends on the missing byte, for which the decoder was shown the placeholder of log entry 6. -/
def Obligations.MissingBytesStop : Prop :=
  ∀ (i : Instr) (s : State), ¬ s.codeAt 1 (i.length - 1) → ∃ k, k.fatal = true ∧ stops i s k

/-- From R49 and R146: after any instruction that stores, each of the eleven bytes at the new `pc` (the most an
instruction has, log entry 6) that is one of the four stored is shown to the decoder as that instruction stored it, and
as memory holds it. -/
def Obligations.StoresAreSeenByFetch : Prop :=
  ∀ (i : Instr) (a : Word) (s t : State),
    exec i s = .next t → t.status = .running → storeAddr i s = some a →
    ∃ v, storedWord i s = some v ∧ ∀ j < 4, ∀ k < 11, t.pc + BitVec.ofNat 32 k = a + BitVec.ofNat 32 j →
      t.window[k]? = some (v.extractLsb' (8 * j) 8) ∧
      t.mem.read (a + BitVec.ofNat 32 j).toNat = v.extractLsb' (8 * j) 8

/-! ### Arithmetic -/

/-- R82: `ADD r/m32, r32`. -/
def Obligations.AddRegister : Prop :=
  ∀ (rm : RM) (src : Reg) (s : State),
    encode (.addRmR32 rm src) = 0x01 :: rm.encode src.bits ∧
    (∀ v, s.modRMIn rm → operand s rm = some v →
      exec (.addRmR32 rm src) s =
        .next { withOperand s rm (v + s.x.get src) with pc := after s (1 + rm.length) }) ∧
    fetchStops (.addRmR32 rm src) rm s ∧ operandStops (.addRmR32 rm src) rm s rm.length

/-- R83: `ADD r/m32, imm8`. -/
def Obligations.AddImmediate : Prop :=
  ∀ (rm : RM) (imm : Byte) (s : State),
    encode (.addRmImm8 rm imm) = 0x83 :: rm.encode 0 ++ [imm] ∧
    (∀ v, s.codeAt 1 (rm.length + 1) → operand s rm = some v →
      exec (.addRmImm8 rm imm) s =
        .next { withOperand s rm (v + imm.signExtend 32) with pc := after s (2 + rm.length) }) ∧
    fetchStops (.addRmImm8 rm imm) rm s ∧ operandStops (.addRmImm8 rm imm) rm s rm.length ∧
    (∀ v, s.modRMIn rm → operand s rm = some v → s.inBounds (after s (1 + rm.length)) = false →
      stops (.addRmImm8 rm imm) s (.outOfBoundsAccess (after s (1 + rm.length)) s.pc))

/-- R84: `SUB r/m32, imm8`. -/
def Obligations.SubImmediate : Prop :=
  ∀ (rm : RM) (imm : Byte) (s : State),
    encode (.subRmImm8 rm imm) = 0x83 :: rm.encode 5 ++ [imm] ∧
    (∀ v, s.codeAt 1 (rm.length + 1) → operand s rm = some v →
      exec (.subRmImm8 rm imm) s =
        .next { withOperand s rm (v - imm.signExtend 32) with
          eflags := subFlags s.eflags v (imm.signExtend 32), pc := after s (2 + rm.length) }) ∧
    fetchStops (.subRmImm8 rm imm) rm s ∧ operandStops (.subRmImm8 rm imm) rm s rm.length ∧
    (∀ v, s.modRMIn rm → operand s rm = some v → s.inBounds (after s (1 + rm.length)) = false →
      stops (.subRmImm8 rm imm) s (.outOfBoundsAccess (after s (1 + rm.length)) s.pc))

/-- R85: `CMP r/m32, imm8`. -/
def Obligations.CompareImmediate : Prop :=
  ∀ (rm : RM) (imm : Byte) (s : State),
    encode (.cmpRmImm8 rm imm) = 0x83 :: rm.encode 7 ++ [imm] ∧
    (∀ v, s.codeAt 1 (rm.length + 1) → operand s rm = some v →
      exec (.cmpRmImm8 rm imm) s =
        .next { s with eflags := subFlags s.eflags v (imm.signExtend 32), pc := after s (2 + rm.length) }) ∧
    fetchStops (.cmpRmImm8 rm imm) rm s ∧ operandStops (.cmpRmImm8 rm imm) rm s rm.length ∧
    (∀ v, s.modRMIn rm → operand s rm = some v → s.inBounds (after s (1 + rm.length)) = false →
      stops (.cmpRmImm8 rm imm) s (.outOfBoundsAccess (after s (1 + rm.length)) s.pc))

/-- R87: `INC r/m32`. -/
def Obligations.Increment : Prop :=
  ∀ (rm : RM) (s : State),
    encode (.incRm rm) = 0xFF :: rm.encode 0 ∧
    (∀ v, s.modRMIn rm → operand s rm = some v →
      exec (.incRm rm) s = .next { withOperand s rm (v + 1) with pc := after s (1 + rm.length) }) ∧
    fetchStops (.incRm rm) rm s ∧ operandStops (.incRm rm) rm s rm.length

/-- R89: `CMP r32, r/m32`; the register is the minuend. -/
def Obligations.CompareRegister : Prop :=
  ∀ (lhs : Reg) (rm : RM) (s : State),
    encode (.cmpR32Rm lhs rm) = 0x3B :: rm.encode lhs.bits ∧
    (∀ v, s.modRMIn rm → operand s rm = some v →
      exec (.cmpR32Rm lhs rm) s =
        .next { s with eflags := subFlags s.eflags (s.x.get lhs) v, pc := after s (1 + rm.length) }) ∧
    fetchStops (.cmpR32Rm lhs rm) rm s ∧ operandStops (.cmpR32Rm lhs rm) rm s rm.length

/-! ### Data movement -/

/-- R91: `MOV r/m32, r32`. -/
def Obligations.MoveToOperand : Prop :=
  ∀ (rm : RM) (src : Reg) (s : State),
    encode (.movRmR32 rm src) = 0x89 :: rm.encode src.bits ∧
    (s.modRMIn rm → (operand s rm).isSome = true →
      exec (.movRmR32 rm src) s =
        .next { withOperand s rm (s.x.get src) with pc := after s (1 + rm.length) }) ∧
    fetchStops (.movRmR32 rm src) rm s ∧ operandStops (.movRmR32 rm src) rm s rm.length

/-- R92: `MOV r32, r/m32`. -/
def Obligations.MoveFromOperand : Prop :=
  ∀ (dst : Reg) (rm : RM) (s : State),
    encode (.movR32Rm dst rm) = 0x8B :: rm.encode dst.bits ∧
    (∀ v, s.modRMIn rm → operand s rm = some v →
      exec (.movR32Rm dst rm) s =
        .next { s with x := s.x.set dst v, pc := after s (1 + rm.length) }) ∧
    fetchStops (.movR32Rm dst rm) rm s ∧ operandStops (.movR32Rm dst rm) rm s rm.length

/-- R93: `MOV r32, imm32`. -/
def Obligations.MoveImmediateToRegister : Prop :=
  ∀ (dst : Reg) (imm : Word) (s : State),
    encode (.movR32Imm32 dst imm) = (0xB8 + dst.bits.setWidth 8) :: wordBytes imm ∧
    (s.inBounds s.pc = true →
      (s.codeAt 1 4 → exec (.movR32Imm32 dst imm) s = .next { s with x := s.x.set dst imm, pc := after s 5 }) ∧
      (¬ s.codeAt 1 4 → stops (.movR32Imm32 dst imm) s (.outOfBoundsAccess (after s 1) s.pc)))

/-- R94: `MOV r/m32, imm32`; any `reg` field, and the immediate is fetched before the address is computed. -/
def Obligations.MoveImmediateToOperand : Prop :=
  ∀ (ignored : BitVec 3) (rm : RM) (imm : Word) (s : State),
    encode (.movRmImm32 ignored rm imm) = 0xC7 :: rm.encode ignored ++ wordBytes imm ∧
    (s.codeAt 1 (rm.length + 4) → (operand s rm).isSome = true →
      exec (.movRmImm32 ignored rm imm) s =
        .next { withOperand s rm imm with pc := after s (5 + rm.length) }) ∧
    fetchStops (.movRmImm32 ignored rm imm) rm s ∧
    (s.modRMIn rm → ¬ s.codeAt (1 + rm.length) 4 →
      stops (.movRmImm32 ignored rm imm) s (.outOfBoundsAccess (after s (1 + rm.length)) s.pc)) ∧
    operandStops (.movRmImm32 ignored rm imm) rm s (rm.length + 4)

/-! ### Stack -/

/-- R95: `PUSH r32`; `PUSH ESP` stores the old `ESP`. -/
def Obligations.PushRegister : Prop :=
  ∀ (r : Reg) (s : State),
    encode (.pushR32 r) = [0x50 + r.bits.setWidth 8] ∧
    (s.inBounds s.pc = true →
      (s.inBounds4 (s.x.esp - 4) = true →
        exec (.pushR32 r) s = .next { s with
          x := { s.x with esp := s.x.esp - 4 }, mem := s.mem.storeWord (s.x.esp - 4) (s.x.get r),
          pc := after s 1 }) ∧
      (s.inBounds4 (s.x.esp - 4) = false → stops (.pushR32 r) s (.outOfBoundsAccess (s.x.esp - 4) s.pc)))

/-- R96: `POP r32`; `POP ESP` leaves the popped word in `ESP`. -/
def Obligations.PopRegister : Prop :=
  ∀ (r : Reg) (s : State),
    encode (.popR32 r) = [0x58 + r.bits.setWidth 8] ∧
    (s.inBounds s.pc = true →
      (s.inBounds4 s.x.esp = true →
        exec (.popR32 r) s = .next { s with
          x := ({ s.x with esp := s.x.esp + 4 } : Regs).set r (s.mem.word s.x.esp), pc := after s 1 }) ∧
      (s.inBounds4 s.x.esp = false → stops (.popR32 r) s (.outOfBoundsAccess s.x.esp s.pc)))

/-- R97: `PUSH imm32`. -/
def Obligations.PushImmediateWord : Prop :=
  ∀ (imm : Word) (s : State),
    encode (.pushImm32 imm) = 0x68 :: wordBytes imm ∧
    (s.codeAt 1 4 → s.inBounds4 (s.x.esp - 4) = true →
      exec (.pushImm32 imm) s = .next { s with
        x := { s.x with esp := s.x.esp - 4 }, mem := s.mem.storeWord (s.x.esp - 4) imm, pc := after s 5 }) ∧
    (¬ s.codeAt 1 4 → stops (.pushImm32 imm) s (.outOfBoundsAccess (after s 1) s.pc)) ∧
    (s.codeAt 1 4 → s.inBounds4 (s.x.esp - 4) = false →
      stops (.pushImm32 imm) s (.outOfBoundsAccess (s.x.esp - 4) s.pc))

/-- R98: `PUSH imm8`, for both settings of the open parameter; which one a launch has is not used. -/
def Obligations.PushImmediateByte : Prop :=
  ∀ (imm : Byte) (s : State),
    encode (.pushImm8 imm) = [0x6A, imm] ∧
    (s.codeAt 1 1 → s.inBounds4 (s.x.esp - 4) = true →
      exec (.pushImm8 imm) s = .next { s with
        x := { s.x with esp := s.x.esp - 4 },
        mem := s.mem.storeWord (s.x.esp - 4)
          (if s.launch.pushImm8Extend = .sign then imm.signExtend 32 else imm.setWidth 32),
        pc := after s 2 }) ∧
    (¬ s.codeAt 1 1 → stops (.pushImm8 imm) s (.outOfBoundsAccess (after s 1) s.pc)) ∧
    (s.codeAt 1 1 → s.inBounds4 (s.x.esp - 4) = false →
      stops (.pushImm8 imm) s (.outOfBoundsAccess (s.x.esp - 4) s.pc))

/-- R99: `CALL rel32`. -/
def Obligations.CallRelative : Prop :=
  ∀ (rel : Word) (s : State),
    encode (.callRel32 rel) = 0xE8 :: wordBytes rel ∧
    (s.codeAt 1 4 → s.inBounds4 (s.x.esp - 4) = true →
      exec (.callRel32 rel) s = .next { s with
        x := { s.x with esp := s.x.esp - 4 }, mem := s.mem.storeWord (s.x.esp - 4) (s.pc + 5),
        pc := s.pc + rel + 5 }) ∧
    (¬ s.codeAt 1 4 → stops (.callRel32 rel) s (.outOfBoundsAccess (after s 1) s.pc)) ∧
    (s.codeAt 1 4 → s.inBounds4 (s.x.esp - 4) = false →
      stops (.callRel32 rel) s (.outOfBoundsAccess (s.x.esp - 4) s.pc))

/-- R100: `RET`. -/
def Obligations.ReturnPopsPc : Prop :=
  ∀ s : State,
    encode .ret = [0xC3] ∧
    (s.inBounds4 s.x.esp = true →
      exec .ret s = .next { s with x := { s.x with esp := s.x.esp + 4 }, pc := s.mem.word s.x.esp }) ∧
    (s.inBounds4 s.x.esp = false → stops .ret s (.outOfBoundsAccess s.x.esp s.pc))

/-- R101: `LEAVE`. -/
def Obligations.LeaveRestoresFrame : Prop :=
  ∀ s : State,
    encode .leave = [0xC9] ∧
    (s.inBounds4 s.x.ebp = true →
      exec .leave s = .next { s with
        x := { s.x with esp := s.x.ebp + 4, ebp := s.mem.word s.x.ebp }, pc := after s 1 }) ∧
    (s.inBounds4 s.x.ebp = false → stops .leave s (.outOfBoundsAccess s.x.ebp s.pc))

/-- R99, R100: a return from a call comes back to the instruction after it with `ESP` restored. -/
def Obligations.ReturnAfterCall : Prop :=
  ∀ (rel : Word) (s : State), s.codeAt 1 4 → s.inBounds4 (s.x.esp - 4) = true →
    ∃ t, exec (.callRel32 rel) s = .next t ∧ t.pc = s.pc + rel + 5 ∧
      exec .ret t = .next { t with x := s.x, pc := s.pc + 5 }

/-- R95, R96: a pop after a push moves one register to another and restores `ESP`. -/
def Obligations.PopAfterPushMoves : Prop :=
  ∀ (r q : Reg) (s : State), s.inBounds s.pc = true → s.inBounds (s.pc + 1) = true →
    s.inBounds4 (s.x.esp - 4) = true →
    ∃ t, exec (.pushR32 r) s = .next t ∧
      exec (.popR32 q) t = .next { t with x := s.x.set q (s.x.get r), pc := s.pc + 2 }

/-! ### Control flow -/

/-- R104: `JMP rel8`. -/
def Obligations.JumpShort : Prop :=
  ∀ (rel : Byte) (s : State),
    encode (.jmpRel8 rel) = [0xEB, rel] ∧
    (s.inBounds (after s 1) = true →
      exec (.jmpRel8 rel) s = .next { s with pc := s.pc + rel.signExtend 32 + 2 }) ∧
    (s.inBounds (after s 1) = false → stops (.jmpRel8 rel) s (.outOfBoundsAccess (after s 1) s.pc))

/-- R105: `JMP rel32`. -/
def Obligations.JumpNear : Prop :=
  ∀ (rel : Word) (s : State),
    encode (.jmpRel32 rel) = 0xE9 :: wordBytes rel ∧
    (s.codeAt 1 4 → exec (.jmpRel32 rel) s = .next { s with pc := s.pc + rel + 5 }) ∧
    (¬ s.codeAt 1 4 → stops (.jmpRel32 rel) s (.outOfBoundsAccess (after s 1) s.pc))

/-- R106 to R116: the ten conditional jumps, each with its condition on bits 0 (CF), 6 (ZF), 7 (SF) and 11 (OF) of
`eflags`. -/
def Obligations.ConditionalJumps : Prop :=
  ∀ (rel : Byte) (s : State),
    let o := s.eflags.getLsbD 11
    let c := s.eflags.getLsbD 0
    let z := s.eflags.getLsbD 6
    let n := s.eflags.getLsbD 7
    ∀ p ∈ ([(.jo rel, 0x70, o), (.jno rel, 0x71, !o), (.jc rel, 0x72, c), (.jnc rel, 0x73, !c), (.jz rel, 0x74, z),
        (.jnz rel, 0x75, !z), (.js rel, 0x78, n), (.jns rel, 0x79, !n), (.jl rel, 0x7C, n != o),
        (.jle rel, 0x7E, z || (n != o))] : List (Instr × Byte × Bool)),
      encode p.1 = [p.2.1, rel] ∧
      (s.inBounds (after s 1) = true →
        exec p.1 s = .next { s with pc := if p.2.2 then s.pc + rel.signExtend 32 + 2 else s.pc + 2 }) ∧
      (s.inBounds (after s 1) = false → stops p.1 s (.outOfBoundsAccess (after s 1) s.pc))

/-- From R75 and R103: the displacement an assembler computes for a target reaches it, from anywhere to anywhere, for the
5-byte forms; and for the 2-byte form where its sign-extended byte is that displacement. -/
def Obligations.AssembledDisplacementReachesTarget : Prop :=
  ∀ (s : State) (target : Word),
    (s.codeAt 1 4 →
      exec (.jmpRel32 (relTo s.pc target 5)) s = .next { s with pc := target } ∧
      (s.inBounds4 (s.x.esp - 4) = true →
        ∃ t, exec (.callRel32 (relTo s.pc target 5)) s = .next t ∧ t.pc = target)) ∧
    (∀ b : Byte, s.inBounds (after s 1) = true → b.signExtend 32 = relTo s.pc target 2 →
      exec (.jmpRel8 b) s = .next { s with pc := target })

/-- From R23: an instruction that completes leaves `pc` at its own address plus its length, unless it is a transfer. -/
def Obligations.PcAdvancesByLength : Prop :=
  ∀ (i : Instr) (s t : State), s.status = .running → exec i s = .next t → t.status = .running →
    transfers i = false → t.pc = after s (encode i).length

/-! ### Frames and invariants over all instructions -/

/-- An instruction writes no general register but those of its row in R18, a table the spec marks as derived from the
instruction rules. -/
def Obligations.RegisterFrame : Prop :=
  ∀ (i : Instr) (s t : State), exec i s = .next t → ∀ r, r ∉ writtenRegs i → t.x.get r = s.x.get r

/-- From R26 and R27: only SUB and CMP write flags, and they write no bit of `eflags` but 0, 6, 7 and 11. -/
def Obligations.FlagFrame : Prop :=
  ∀ (i : Instr) (s t : State), exec i s = .next t →
    (writesFlags i = false → t.eflags = s.eflags) ∧
    (∀ n, n ≠ 0 → n ≠ 6 → n ≠ 7 → n ≠ 11 → t.eflags.getLsbD n = s.eflags.getLsbD n)

/-- An instruction changes no byte of memory but the four at the address it stores to. -/
def Obligations.MemoryFrame : Prop :=
  ∀ (i : Instr) (s t : State), exec i s = .next t →
    ∀ n, (∀ a, storeAddr i s = some a → ∀ j < 4, n ≠ (a + BitVec.ofNat 32 j).toNat) →
      t.mem.read n = s.mem.read n

/-- From R6: the parameters of a launch are fixed for the run. The model holds them in its state, log entry 1. -/
def Obligations.LaunchParametersAreFixed : Prop :=
  ∀ s t : State, step s = .next t → t.launch = s.launch

/-- Every step keeps the invariant: memory stays canonical and inside `MEM_SIZE`, the unused bits of `eflags` stay 0,
the parameters stay legal, and a stop agrees with the `pc` it leaves. The model's choices in it are that memory is a
canonical list (log entry 10) and that the state holds the parameters (log entry 1). -/
def Obligations.StepKeepsInvariant : Prop :=
  ∀ s t : State, s.inv = true → step s = .next t → t.inv = true

/-- Every state a run reaches, from any launch and any image, meets the invariant, with the model's choices in it: the
canonical list of memory (log entry 10), the parameters in the state (log entry 1), construction (log entry 5). -/
def Obligations.ReachedStatesMeetInvariant : Prop :=
  ∀ (l : Launch) (image : List Byte) (s t : State) (n : Nat),
    State.construct l image = some s → reaches n s t → t.inv = true

/-- From R118 and R124: a run ends with one stop in one state, and nothing follows it; the step that does not exist
shows as the fault of log entry 4. -/
def Obligations.RunsEndOnce : Prop :=
  (∀ (s t t' : State) (k k' : Stop), endsIn s k t → endsIn s k' t' → k = k' ∧ t = t') ∧
  (∀ (s t : State) (k : Stop) (n : Nat), reaches n s t → t.status = .halted k →
    ∀ m, Host.Core.run Sys2Proof.core (n + 1 + m) s = .fault (.halted k))
end

