-- ==== Sys2Proof/Laws/Memory.lean ====
section
/-! SUPPORT. Bytes of a word, and memory: read after write, and that every operation keeps the canonical form and
the bound. -/

namespace Sys2Proof

/-! ### Words and their bytes -/

theorem wordOf_byteOf (v : Word) : wordOf (byteOf v 0) (byteOf v 1) (byteOf v 2) (byteOf v 3) = v := by
  apply BitVec.eq_of_getLsbD_eq
  intro i hi
  simp only [wordOf, byteOf, BitVec.getLsbD_append, BitVec.getLsbD_extractLsb']
  split
  · simp_all
  · split
    · rw [decide_eq_true (by omega)]; simp only [Bool.true_and]; congr 1; omega
    · split
      · rw [decide_eq_true (by omega)]; simp only [Bool.true_and]; congr 1; omega
      · rw [decide_eq_true (by omega)]; simp only [Bool.true_and]; congr 1; omega

theorem byteOf_wordOf (b0 b1 b2 b3 : Byte) :
    byteOf (wordOf b0 b1 b2 b3) 0 = b0 ∧ byteOf (wordOf b0 b1 b2 b3) 1 = b1 ∧
      byteOf (wordOf b0 b1 b2 b3) 2 = b2 ∧ byteOf (wordOf b0 b1 b2 b3) 3 = b3 := by
  refine ⟨?_, ?_, ?_, ?_⟩ <;> apply BitVec.eq_of_getLsbD_eq <;> intro i hi <;>
    simp only [wordOf, byteOf, BitVec.getLsbD_append, BitVec.getLsbD_extractLsb', hi, decide_true, Bool.true_and]
  · simp [hi]
  · rw [if_neg (by omega), if_pos (by omega)]; congr 1; omega
  · rw [if_neg (by omega), if_neg (by omega), if_pos (by omega)]; congr 1; omega
  · rw [if_neg (by omega), if_neg (by omega), if_neg (by omega)]; congr 1; omega

theorem wordBytes_wordOf (b0 b1 b2 b3 : Byte) : wordBytes (wordOf b0 b1 b2 b3) = [b0, b1, b2, b3] := by
  obtain ⟨h0, h1, h2, h3⟩ := byteOf_wordOf b0 b1 b2 b3
  simp [wordBytes, h0, h1, h2, h3]

@[simp] theorem wordBytes_length (v : Word) : (wordBytes v).length = 4 := rfl

namespace Machine

/-! ### Canonical form -/

theorem Memory.all_erase {p : Host.Cell → Bool} {m : Memory} (h : m.all p = true) (a : Nat) :
    (Memory.erase m a).all p = true := by
  induction m with
  | nil => rfl
  | cons c rest ih =>
    obtain ⟨b, v⟩ := c
    simp only [List.all_cons, Bool.and_eq_true] at h
    simp only [Memory.erase]
    split
    · exact ih h.2
    · simp [h.1, ih h.2]

theorem Memory.all_insert {p : Host.Cell → Bool} {m : Memory} (h : m.all p = true) {a : Nat} {v : Byte}
    (hp : p (a, v) = true) : (Memory.insert m a v).all p = true := by
  induction m with
  | nil => simp [Memory.insert, hp]
  | cons c rest ih =>
    obtain ⟨b, w⟩ := c
    simp only [List.all_cons, Bool.and_eq_true] at h
    simp only [Memory.insert]
    split
    · simp [hp, h.1, h.2]
    · simp [h.1, ih h.2]

theorem Memory.wf_erase {m : Memory} (h : m.wf = true) (a : Nat) : (m.erase a).wf = true := by
  induction m with
  | nil => rfl
  | cons c rest ih =>
    obtain ⟨b, v⟩ := c
    simp only [Memory.wf, Bool.and_eq_true] at h
    simp only [Memory.erase]
    split
    · exact ih h.2
    · simp only [Memory.wf, Bool.and_eq_true]
      exact ⟨⟨h.1.1, Memory.all_erase h.1.2 a⟩, ih h.2⟩

theorem Memory.erase_no_cell (m : Memory) (a : Nat) : (m.erase a).all (fun c => c.1 != a) = true := by
  induction m with
  | nil => rfl
  | cons c rest ih =>
    obtain ⟨b, v⟩ := c
    simp only [Memory.erase]
    split
    · exact ih
    · rename_i h
      simp only [List.all_cons, Bool.and_eq_true]
      exact ⟨by simpa using h, ih⟩

theorem Memory.wf_insert {m : Memory} (h : m.wf = true) {a : Nat} (hn : m.all (fun c => c.1 != a) = true)
    {v : Byte} (hv : v ≠ 0) : (m.insert a v).wf = true := by
  induction m with
  | nil => simpa [Memory.insert, Memory.wf] using hv
  | cons c rest ih =>
    obtain ⟨b, w⟩ := c
    simp only [Memory.wf, Bool.and_eq_true] at h
    simp only [List.all_cons, Bool.and_eq_true, bne_iff_ne] at hn
    simp only [Memory.insert]
    split
    · rename_i hlt
      simp only [Memory.wf, Bool.and_eq_true, List.all_cons, decide_eq_true_eq]
      refine ⟨⟨bne_iff_ne.mpr hv, hlt, ?_⟩, h⟩
      simp only [List.all_eq_true, decide_eq_true_eq] at h ⊢
      exact fun c hc => Nat.lt_trans hlt (h.1.2 c hc)
    · rename_i hge
      simp only [Memory.wf, Bool.and_eq_true]
      refine ⟨⟨h.1.1, Memory.all_insert h.1.2 ?_⟩, ih h.2 hn.2⟩
      simp only [decide_eq_true_eq]
      omega

/-- A write keeps the canonical form. -/
theorem Memory.wf_write {m : Memory} (h : m.wf = true) (a : Nat) (v : Byte) : (m.write a v).wf = true := by
  simp only [Memory.write]
  split
  · exact Memory.wf_erase h a
  · rename_i hv
    exact Memory.wf_insert (Memory.wf_erase h a) (Memory.erase_no_cell m a) hv

/-- A write below the bound keeps every cell below it. -/
theorem Memory.below_write {m : Memory} {n : Nat} (h : m.below n = true) {a : Nat} (ha : a < n) (v : Byte) :
    (m.write a v).below n = true := by
  simp only [Memory.write]
  split
  · exact Memory.all_erase h a
  · exact Memory.all_insert (Memory.all_erase h a) (by simpa using ha)

theorem Memory.wf_storeWord {m : Memory} (h : m.wf = true) (a v : Word) : (m.storeWord a v).wf = true := by
  simp only [Memory.storeWord]
  exact Memory.wf_write (Memory.wf_write (Memory.wf_write (Memory.wf_write h _ _) _ _) _ _) _ _

theorem Memory.wf_loadBytes {m : Memory} (h : m.wf = true) (a : Nat) (bs : List Byte) :
    (m.loadBytes a bs).wf = true := by
  induction bs generalizing m a with
  | nil => exact h
  | cons b rest ih => exact ih (Memory.wf_write h a b) (a + 1)

theorem Memory.wf_storeCode {m : Memory} (h : m.wf = true) (n : Nat) (a : Word) (bs : List Byte) :
    (m.storeCode n a bs).wf = true := by
  induction bs generalizing m a with
  | nil => exact h
  | cons b rest ih =>
    simp only [Memory.storeCode]
    split
    · exact ih (Memory.wf_write h _ _) _
    · exact ih h _

/-! ### Read after erase and insert -/

theorem Memory.read_erase (m : Memory) (a b : Nat) :
    (m.erase a).read b = if b = a then 0 else m.read b := by
  induction m with
  | nil => simp [Memory.erase, Memory.read]
  | cons c rest ih =>
    obtain ⟨d, v⟩ := c
    simp only [Memory.erase]
    by_cases h : d = a
    · subst h
      simp only [if_true, ih, Memory.read]
      by_cases hb : b = d
      · simp [hb]
      · simp [hb, Ne.symm hb]
    · simp only [if_neg h, Memory.read, ih]
      by_cases hb : d = b
      · subst hb; simp [h]
      · simp [hb]

theorem Memory.read_insert (m : Memory) (a b : Nat) (v : Byte)
    (hc : m.all (fun c => c.1 != a) = true) :
    (m.insert a v).read b = if b = a then v else m.read b := by
  induction m with
  | nil => by_cases h : a = b <;> simp [Memory.insert, Memory.read, h, eq_comm]
  | cons c rest ih =>
    obtain ⟨d, w⟩ := c
    simp only [List.all_cons, Bool.and_eq_true, bne_iff_ne] at hc
    simp only [Memory.insert]
    split
    · by_cases h : a = b <;> simp [Memory.read, h, eq_comm]
    · simp only [Memory.read, ih hc.2]
      by_cases h : d = b
      · subst h; simp [hc.1]
      · simp [h]

/-- A read gives the latest write to the same address, or what was there. No canonical form is needed. -/
theorem Memory.read_write (m : Memory) (a b : Nat) (v : Byte) :
    (m.write a v).read b = if b = a then v else m.read b := by
  simp only [Memory.write]
  split
  · rename_i h
    rw [Memory.read_erase, h]
  · rw [Memory.read_insert _ _ _ _ (Memory.erase_no_cell m a), Memory.read_erase]
    split <;> rfl

theorem Memory.read_storeWord (m : Memory) (a v : Word) (n : Nat) :
    (m.storeWord a v).read n =
      if n = (a + 3).toNat then byteOf v 3 else if n = (a + 2).toNat then byteOf v 2
      else if n = (a + 1).toNat then byteOf v 1 else if n = a.toNat then byteOf v 0 else m.read n := by
  simp only [Memory.storeWord, Memory.read_write]

end Machine

end Sys2Proof
end

