-- ==== Sys2Proof/Laws/State.lean ====
section
/-! SUPPORT. What each update of the state leaves in each field, so that no proof unfolds a record update. -/

namespace Sys2Proof.Machine

/-! ### Registers -/

theorem Regs.get_set (x : Regs) (r q : Reg) (v : Word) :
    (x.set r v).get q = if q = r then v else x.get q := by
  cases r <;> cases q <;> rfl

@[simp] theorem Regs.get_set_self (x : Regs) (r : Reg) (v : Word) : (x.set r v).get r = v := by
  simp [Regs.get_set]

theorem Regs.get_set_ne (x : Regs) {r q : Reg} (v : Word) (h : q ≠ r) : (x.set r v).get q = x.get q := by
  simp [Regs.get_set, h]

@[simp] theorem Regs.set_set (x : Regs) (r : Reg) (v w : Word) : (x.set r v).set r w = x.set r w := by
  cases r <;> rfl

@[simp] theorem Regs.set_get (x : Regs) (r : Reg) : x.set r (x.get r) = x := by
  cases r <;> rfl

@[simp] theorem State.reg_setReg_self (s : State) (r : Reg) (v : Word) : (s.setReg r v).reg r = v := by
  simp [State.reg, State.setReg]

@[simp] theorem State.setReg_x (s : State) (r : Reg) (v : Word) : (s.setReg r v).x = s.x.set r v := rfl
@[simp] theorem State.setReg_pc (s : State) (r : Reg) (v : Word) : (s.setReg r v).pc = s.pc := rfl
@[simp] theorem State.setReg_eflags (s : State) (r : Reg) (v : Word) : (s.setReg r v).eflags = s.eflags := rfl
@[simp] theorem State.setReg_mem (s : State) (r : Reg) (v : Word) : (s.setReg r v).mem = s.mem := rfl
@[simp] theorem State.setReg_status (s : State) (r : Reg) (v : Word) : (s.setReg r v).status = s.status := rfl
@[simp] theorem State.setReg_launch (s : State) (r : Reg) (v : Word) : (s.setReg r v).launch = s.launch := rfl

/-! ### The instruction pointer -/

@[simp] theorem State.jump_x (s : State) (v : Word) : (s.jump v).x = s.x := rfl
@[simp] theorem State.jump_pc (s : State) (v : Word) : (s.jump v).pc = v := rfl
@[simp] theorem State.jump_eflags (s : State) (v : Word) : (s.jump v).eflags = s.eflags := rfl
@[simp] theorem State.jump_mem (s : State) (v : Word) : (s.jump v).mem = s.mem := rfl
@[simp] theorem State.jump_status (s : State) (v : Word) : (s.jump v).status = s.status := rfl
@[simp] theorem State.jump_launch (s : State) (v : Word) : (s.jump v).launch = s.launch := rfl

@[simp] theorem State.advance_x (s : State) (n : Nat) : (s.advance n).x = s.x := rfl
@[simp] theorem State.advance_pc (s : State) (n : Nat) : (s.advance n).pc = s.pc + BitVec.ofNat 32 n := rfl
@[simp] theorem State.advance_eflags (s : State) (n : Nat) : (s.advance n).eflags = s.eflags := rfl
@[simp] theorem State.advance_mem (s : State) (n : Nat) : (s.advance n).mem = s.mem := rfl
@[simp] theorem State.advance_status (s : State) (n : Nat) : (s.advance n).status = s.status := rfl
@[simp] theorem State.advance_launch (s : State) (n : Nat) : (s.advance n).launch = s.launch := rfl

/-! ### Flags -/

@[simp] theorem State.updateFlagsSub_x (s : State) (v w : Word) : (s.updateFlagsSub v w).x = s.x := rfl
@[simp] theorem State.updateFlagsSub_pc (s : State) (v w : Word) : (s.updateFlagsSub v w).pc = s.pc := rfl
@[simp] theorem State.updateFlagsSub_eflags (s : State) (v w : Word) :
    (s.updateFlagsSub v w).eflags = subFlags s.eflags v w := rfl
@[simp] theorem State.updateFlagsSub_mem (s : State) (v w : Word) : (s.updateFlagsSub v w).mem = s.mem := rfl
@[simp] theorem State.updateFlagsSub_status (s : State) (v w : Word) :
    (s.updateFlagsSub v w).status = s.status := rfl
@[simp] theorem State.updateFlagsSub_launch (s : State) (v w : Word) :
    (s.updateFlagsSub v w).launch = s.launch := rfl

/-! ### Stops -/

@[simp] theorem State.halt_x (s : State) (k : Stop) : (s.halt k).x = s.x := rfl
@[simp] theorem State.halt_pc (s : State) (k : Stop) : (s.halt k).pc = s.pc := rfl
@[simp] theorem State.halt_eflags (s : State) (k : Stop) : (s.halt k).eflags = s.eflags := rfl
@[simp] theorem State.halt_mem (s : State) (k : Stop) : (s.halt k).mem = s.mem := rfl
@[simp] theorem State.halt_status (s : State) (k : Stop) : (s.halt k).status = .halted k := rfl
@[simp] theorem State.halt_launch (s : State) (k : Stop) : (s.halt k).launch = s.launch := rfl

theorem State.takeStop_eq (s : State) (e : Raise) : s.takeStop e = s.halt (e.stop s.pc) := rfl

@[simp] theorem State.takeStop_x (s : State) (e : Raise) : (s.takeStop e).x = s.x := rfl
@[simp] theorem State.takeStop_pc (s : State) (e : Raise) : (s.takeStop e).pc = s.pc := rfl
@[simp] theorem State.takeStop_eflags (s : State) (e : Raise) : (s.takeStop e).eflags = s.eflags := rfl
@[simp] theorem State.takeStop_mem (s : State) (e : Raise) : (s.takeStop e).mem = s.mem := rfl
@[simp] theorem State.takeStop_status (s : State) (e : Raise) :
    (s.takeStop e).status = .halted (e.stop s.pc) := rfl
@[simp] theorem State.takeStop_launch (s : State) (e : Raise) : (s.takeStop e).launch = s.launch := rfl

/-- A fatal stop of an instruction is never the normal end. -/
theorem Raise.stop_ne_normalEnd (e : Raise) (a : Word) : e.stop a ≠ .normalEnd := by
  cases e <;> simp [Raise.stop]

/-! ### Bounds depend on the launch alone -/

@[simp] theorem State.inBounds_setReg (s : State) (r : Reg) (v a : Word) :
    (s.setReg r v).inBounds a = s.inBounds a := rfl
@[simp] theorem State.inBounds4_setReg (s : State) (r : Reg) (v a : Word) :
    (s.setReg r v).inBounds4 a = s.inBounds4 a := rfl

end Sys2Proof.Machine
end

