-- ==== Sys2Proof/Laws/Ops.lean ====
section
/-! SUPPORT. One lemma per shared operation that says everything it can do, for the proofs to cite instead of
unfolding it. -/

namespace Sys2Proof.Machine

/-! ### Sequencing -/

theorem bind_ok_iff {ε α β : Type} (x : Except ε α) (f : α → Except ε β) (b : β) :
    (x >>= f) = .ok b ↔ ∃ a, x = .ok a ∧ f a = .ok b := by
  cases x <;> simp [bind, Except.bind]

theorem bind_error_iff {ε α β : Type} (x : Except ε α) (f : α → Except ε β) (e : ε) :
    (x >>= f) = .error e ↔ x = .error e ∨ ∃ a, x = .ok a ∧ f a = .error e := by
  cases x <;> simp [bind, Except.bind]

@[simp] theorem ok_bind {ε α β : Type} (a : α) (f : α → Except ε β) : ((.ok a : Except ε α) >>= f) = f a := rfl

@[simp] theorem error_bind {ε α β : Type} (e : ε) (f : α → Except ε β) :
    ((.error e : Except ε α) >>= f) = .error e := rfl

/-! ### Stopping -/

/-- An attempt always answers a next state: the result, or the precise stop. -/
theorem attempt_next (s : State) (r : Except Raise State) (t : State) :
    attempt s r = .next t ↔ r = .ok t ∨ ∃ e, r = .error e ∧ t = s.takeStop e := by
  cases r <;> simp [attempt, eq_comm]

@[simp] theorem attempt_ok (s t : State) : attempt s (.ok t) = .next t := rfl

@[simp] theorem attempt_error (s : State) (e : Raise) : attempt s (.error e) = .next (s.takeStop e) := rfl

/-! ### Access -/

/-- The four addresses of a 32-bit access. -/
theorem inBounds4_iff (s : State) (a : Word) :
    s.inBounds4 a = true ↔
      s.inBounds a = true ∧ s.inBounds (a + 1) = true ∧ s.inBounds (a + 2) = true ∧ s.inBounds (a + 3) = true := by
  simp [State.inBounds4, and_assoc]

theorem memRead8_ok (s : State) (a : Word) (v : Byte) :
    s.memRead8 a = .ok v ↔ s.inBounds a = true ∧ v = s.mem.read a.toNat := by
  simp only [State.memRead8]; split <;> rename_i h <;> (simp [h]; try exact eq_comm)

theorem memRead8_error (s : State) (a : Word) (e : Raise) :
    s.memRead8 a = .error e ↔ s.inBounds a = false ∧ e = .outOfBoundsAccess a := by
  simp only [State.memRead8]; split <;> rename_i h <;> (simp [h]; try exact eq_comm)

theorem memRead32_ok (s : State) (a v : Word) :
    s.memRead32 a = .ok v ↔ s.inBounds4 a = true ∧ v = s.mem.word a := by
  simp only [State.memRead32]; split <;> rename_i h <;> (simp [h]; try exact eq_comm)

theorem memRead32_error (s : State) (a : Word) (e : Raise) :
    s.memRead32 a = .error e ↔ s.inBounds4 a = false ∧ e = .outOfBoundsAccess a := by
  simp only [State.memRead32]; split <;> rename_i h <;> (simp [h]; try exact eq_comm)

theorem memWrite32_ok (s : State) (a v : Word) (t : State) :
    s.memWrite32 a v = .ok t ↔ s.inBounds4 a = true ∧ t = { s with mem := s.mem.storeWord a v } := by
  simp only [State.memWrite32]; split <;> rename_i h <;> (simp [h]; try exact eq_comm)

theorem memWrite32_error (s : State) (a v : Word) (e : Raise) :
    s.memWrite32 a v = .error e ↔ s.inBounds4 a = false ∧ e = .outOfBoundsAccess a := by
  simp only [State.memWrite32]; split <;> rename_i h <;> (simp [h]; try exact eq_comm)

/-- A word stored where memory exists keeps every cell below `MEM_SIZE`. -/
theorem below_storeWord {s : State} (h : s.mem.below s.launch.memSize = true) {a : Word}
    (ha : s.inBounds4 a = true) (v : Word) : (s.mem.storeWord a v).below s.launch.memSize = true := by
  simp only [inBounds4_iff, State.inBounds, decide_eq_true_eq] at ha
  obtain ⟨h0, h1, h2, h3⟩ := ha
  exact Memory.below_write (Memory.below_write (Memory.below_write (Memory.below_write h h0 _) h1 _) h2 _) h3 _

/-! ### Stack -/

theorem push32_ok (s : State) (v : Word) (t : State) :
    s.push32 v = .ok t ↔ s.inBounds4 (s.reg .esp - 4) = true ∧
      t = { s with x := s.x.set .esp (s.reg .esp - 4), mem := s.mem.storeWord (s.reg .esp - 4) v } := by
  simp only [State.push32, bind_ok_iff, memWrite32_ok]
  constructor
  · rintro ⟨u, ⟨h, rfl⟩, hu⟩
    exact ⟨h, by simpa [State.setReg] using hu.symm⟩
  · rintro ⟨h, rfl⟩
    exact ⟨_, ⟨h, rfl⟩, rfl⟩

theorem push32_error (s : State) (v : Word) (e : Raise) :
    s.push32 v = .error e ↔ s.inBounds4 (s.reg .esp - 4) = false ∧ e = .outOfBoundsAccess (s.reg .esp - 4) := by
  simp [State.push32, bind_error_iff, memWrite32_error]

theorem pop32_ok (s : State) (p : Word × State) :
    s.pop32 = .ok p ↔ s.inBounds4 (s.reg .esp) = true ∧
      p = (s.mem.word (s.reg .esp), s.setReg .esp (s.reg .esp + 4)) := by
  simp only [State.pop32, bind_ok_iff, memRead32_ok]
  constructor
  · rintro ⟨v, ⟨h, rfl⟩, hp⟩
    exact ⟨h, by simpa using hp.symm⟩
  · rintro ⟨h, rfl⟩
    exact ⟨_, ⟨h, rfl⟩, rfl⟩

theorem pop32_error (s : State) (e : Raise) :
    s.pop32 = .error e ↔ s.inBounds4 (s.reg .esp) = false ∧ e = .outOfBoundsAccess (s.reg .esp) := by
  simp [State.pop32, bind_error_iff, memRead32_error]

/-! ### Fetch -/

theorem fetchU8_ok (s : State) (k : Nat) (v : Byte) :
    s.fetchU8 k = .ok v ↔ s.inBounds (s.pc + BitVec.ofNat 32 k) = true ∧
      v = s.mem.read (s.pc + BitVec.ofNat 32 k).toNat := memRead8_ok s _ v

theorem fetchU8_error (s : State) (k : Nat) (e : Raise) :
    s.fetchU8 k = .error e ↔ s.inBounds (s.pc + BitVec.ofNat 32 k) = false ∧
      e = .outOfBoundsAccess (s.pc + BitVec.ofNat 32 k) := memRead8_error s _ e

theorem fetch32_ok (s : State) (k : Nat) (v : Word) :
    s.fetch32 k = .ok v ↔ s.inBounds4 (s.pc + BitVec.ofNat 32 k) = true ∧
      v = s.mem.word (s.pc + BitVec.ofNat 32 k) := memRead32_ok s _ v

theorem fetch32_error (s : State) (k : Nat) (e : Raise) :
    s.fetch32 k = .error e ↔ s.inBounds4 (s.pc + BitVec.ofNat 32 k) = false ∧
      e = .outOfBoundsAccess (s.pc + BitVec.ofNat 32 k) := memRead32_error s _ e

/-- The four bytes at offset `k` exist exactly when a 32-bit fetch there is in bounds. -/
theorem inBounds4_pc (s : State) (k : Nat) :
    s.inBounds4 (s.pc + BitVec.ofNat 32 k) = true ↔ s.codeAt k 4 := by
  have h (j : Nat) : s.pc + BitVec.ofNat 32 k + BitVec.ofNat 32 j = s.pc + BitVec.ofNat 32 (k + j) := by
    rw [BitVec.add_assoc, BitVec.ofNat_add]
  have h0 : s.pc + BitVec.ofNat 32 k = s.pc + BitVec.ofNat 32 (k + 0) := rfl
  rw [inBounds4_iff]
  simp only [State.codeAt]
  constructor
  · rintro ⟨a, b, c, d⟩ j hj
    have hb := (h 1).symm ▸ b
    rcases j with _ | _ | _ | _ | j
    · exact a
    · rw [← h 1]; exact b
    · rw [← h 2]; exact c
    · rw [← h 3]; exact d
    · omega
  · intro f
    exact ⟨f 0 (by omega), (h 1) ▸ f 1 (by omega), (h 2) ▸ f 2 (by omega), (h 3) ▸ f 3 (by omega)⟩

/-- The fetches of the ModRM bytes raise nothing exactly when those bytes exist. -/
theorem fetchModRM_ok (s : State) (rm : RM) : s.fetchModRM rm = .ok () ↔ s.modRMIn rm := by
  have split (k n m : Nat) : s.codeAt k (n + m) ↔ s.codeAt k n ∧ s.codeAt (k + n) m := by
    simp only [State.codeAt]
    constructor
    · intro f
      exact ⟨fun j hj => f j (by omega), fun j hj => by have := f (n + j) (by omega); rwa [← Nat.add_assoc] at this⟩
    · rintro ⟨f, g⟩ j hj
      by_cases h : j < n
      · exact f j h
      · have := g (j - n) (by omega)
        rwa [show k + n + (j - n) = k + j by omega] at this
  have one (k : Nat) : s.codeAt k 1 ↔ s.inBounds (s.pc + BitVec.ofNat 32 k) = true := by
    simp only [State.codeAt]
    constructor
    · intro f; exact f 0 (by omega)
    · intro h j hj
      obtain rfl : j = 0 := by omega
      exact h
  have four := inBounds4_pc s
  simp only [State.modRMIn]
  rcases rm with r | m
  · simp [State.fetchModRM, bind_ok_iff, fetchU8_ok, RM.length, one]
  · cases m <;>
      simp only [State.fetchModRM, bind_ok_iff, fetchU8_ok, fetch32_ok, RM.length, exists_and_left,
        exists_and_right, exists_eq, and_true, four]
    · exact (one 1).symm
    · rw [split 1 1 4, one]
    · rw [split 1 1 1, one, one]
    · rw [split 1 1 4, one]
    · rw [split 1 1 1, one, one]
    · rw [split 1 2 1, split 1 1 1, one, one, one]; tauto
    · rw [split 1 2 4, split 1 1 1, one, one]; tauto

/-! ### Operands -/

/-- The status, `pc`, flags and launch parameters survive a write to an `r/m32` operand, which changes one
register or stores one word. -/
theorem writeRM32_ok (s : State) (rm : RM) (v : Word) (t : State) :
    s.writeRM32 rm v = .ok t ↔
      (∃ r, rm = .reg r ∧ t = s.setReg r v) ∨
      (∃ m a, rm = .mem m ∧ s.ea m = .ok a ∧ s.inBounds4 a = true ∧
        t = { s with mem := s.mem.storeWord a v }) := by
  cases rm with
  | reg r => simpa [State.writeRM32] using eq_comm
  | mem m => simp [State.writeRM32, bind_ok_iff, memWrite32_ok]

theorem writeRM32_error (s : State) (rm : RM) (v : Word) (e : Raise) :
    s.writeRM32 rm v = .error e ↔
      ∃ m, rm = .mem m ∧ (s.ea m = .error e ∨
        ∃ a, s.ea m = .ok a ∧ s.inBounds4 a = false ∧ e = .outOfBoundsAccess a) := by
  cases rm with
  | reg r => simp [State.writeRM32]
  | mem m => simp [State.writeRM32, bind_error_iff, memWrite32_error]

theorem readRM32_ok (s : State) (rm : RM) (v : Word) :
    s.readRM32 rm = .ok v ↔
      (∃ r, rm = .reg r ∧ v = s.reg r) ∨
      (∃ m a, rm = .mem m ∧ s.ea m = .ok a ∧ s.inBounds4 a = true ∧ v = s.mem.word a) := by
  cases rm with
  | reg r => simpa [State.readRM32] using eq_comm
  | mem m => simp [State.readRM32, bind_ok_iff, memRead32_ok]

theorem readRM32_error (s : State) (rm : RM) (e : Raise) :
    s.readRM32 rm = .error e ↔
      ∃ m, rm = .mem m ∧ (s.ea m = .error e ∨
        ∃ a, s.ea m = .ok a ∧ s.inBounds4 a = false ∧ e = .outOfBoundsAccess a) := by
  cases rm with
  | reg r => simp [State.readRM32]
  | mem m => simp [State.readRM32, bind_error_iff, memRead32_error]

/-! ### The end test -/

theorem endTest_of_ne (s : State) (h : s.pc ≠ 0) : s.endTest = s := by
  unfold State.endTest; rw [if_neg h]; split <;> rfl

theorem endTest_of_halted (s : State) (k : Stop) (h : s.status = .halted k) : s.endTest = s := by
  unfold State.endTest; rw [h]

theorem endTest_zero (s : State) (h : s.pc = 0) (hr : s.status = .running) : s.endTest = s.halt .normalEnd := by
  unfold State.endTest; rw [hr]; simp [h]

end Sys2Proof.Machine
end

