-- ==== Sys2Proof/Laws/Decode.lean ====
section
/-! SUPPORT. Small lemmas of the decoder and the encoder. -/

namespace Sys2Proof

@[simp] theorem Reg.ofBits_bits (r : Reg) : Reg.ofBits r.bits = r := by cases r <;> rfl

theorem Reg.bits_ofBits (b : BitVec 3) : (Reg.ofBits b).bits = b := by revert b; decide

theorem modField_modRMByte (mod : BitVec 2) (reg rm : BitVec 3) : modField (modRMByte mod reg rm) = mod := by
  revert mod reg rm; decide

theorem regField_modRMByte (mod : BitVec 2) (reg rm : BitVec 3) : regField (modRMByte mod reg rm) = reg := by
  revert mod reg rm; decide

theorem rmField_modRMByte (mod : BitVec 2) (reg rm : BitVec 3) : rmField (modRMByte mod reg rm) = rm := by
  revert mod reg rm; decide

theorem modRMByte_fields (b : Byte) : modRMByte (modField b) (regField b) (rmField b) = b := by
  revert b; decide

@[simp] theorem takeByte_cons (b : Byte) (bs : List Byte) : takeByte (b :: bs) = .ok (b, bs) := rfl

theorem takeWord_wordBytes (v : Word) (bs : List Byte) : takeWord (wordBytes v ++ bs) = .ok (v, bs) := by
  simp [wordBytes, takeWord, wordOf_byteOf]

theorem takeByte_ok {bs : List Byte} {p : Byte × List Byte} (h : takeByte bs = .ok p) : bs = p.1 :: p.2 := by
  cases bs with
  | nil => simp [takeByte] at h
  | cons b rest => simp [takeByte] at h; subst h; rfl

theorem takeWord_ok {bs : List Byte} {p : Word × List Byte} (h : takeWord bs = .ok p) :
    bs = wordBytes p.1 ++ p.2 := by
  rcases bs with _ | ⟨b0, _ | ⟨b1, _ | ⟨b2, _ | ⟨b3, bs⟩⟩⟩⟩ <;> simp [takeWord] at h
  subst h
  simp [wordBytes_wordOf]

theorem takeByte_of_length {bs : List Byte} {n : Nat} (h : n + 1 ≤ bs.length) :
    ∃ p, takeByte bs = .ok p ∧ n ≤ p.2.length := by
  cases bs with
  | nil => simp at h
  | cons b rest => exact ⟨(b, rest), rfl, by simpa using h⟩

theorem takeWord_of_length {bs : List Byte} {n : Nat} (h : n + 4 ≤ bs.length) :
    ∃ p, takeWord bs = .ok p ∧ n ≤ p.2.length := by
  rcases bs with _ | ⟨b0, _ | ⟨b1, _ | ⟨b2, _ | ⟨b3, bs⟩⟩⟩⟩ <;> simp at h
  exact ⟨(wordOf b0 b1 b2 b3, bs), rfl, by simpa using h⟩

@[simp] theorem Machine.window_length (s : Machine.State) : s.window.length = maxLength := by
  simp [Machine.State.window]

end Sys2Proof
end

