-- ==== Sys2Proof/Laws/PerInstr.lean ====
section
/-! SUPPORT. Per instruction: the encoder writes as many bytes as the length table says, 1 to 11 of them
(R50, R69). -/

namespace Sys2Proof.Laws.EncodedLength

/-- The encoding of the instruction has the length of R69, between 1 and the longest. -/
def Statement (i : Instr) : Prop :=
  (encode i).length = i.length ∧ 1 ≤ i.length ∧ i.length ≤ maxLength

/-- The ModRM bytes of an operand are `L(m)` many, 1 to 6 (R69). -/
theorem rm_encode_length (reg : BitVec 3) (rm : RM) :
    (rm.encode reg).length = rm.length ∧ 1 ≤ rm.length ∧ rm.length ≤ 6 := by
  rcases rm with r | m
  · simp [RM.encode, RM.length]
  · cases m <;> simp [RM.encode, RM.length, MemForm.tail]

theorem addRmR32 (rm : RM) (src : Reg) : Statement (.addRmR32 rm src) := by
  have h := rm_encode_length src.bits rm
  simp [Statement, encode, Instr.length, maxLength] at h ⊢
  omega

theorem cmpR32Rm (lhs : Reg) (rm : RM) : Statement (.cmpR32Rm lhs rm) := by
  have h := rm_encode_length lhs.bits rm
  simp [Statement, encode, Instr.length, maxLength] at h ⊢
  omega

theorem pushR32 (r : Reg) : Statement (.pushR32 r) := by
  simp [Statement, encode, Instr.length, maxLength]

theorem popR32 (r : Reg) : Statement (.popR32 r) := by
  simp [Statement, encode, Instr.length, maxLength]

theorem pushImm32 (imm : Word) : Statement (.pushImm32 imm) := by
  simp [Statement, encode, Instr.length, maxLength]

theorem pushImm8 (imm : Byte) : Statement (.pushImm8 imm) := by
  simp [Statement, encode, Instr.length, maxLength]

theorem jo (rel : Byte) : Statement (.jo rel) := by
  simp [Statement, encode, Instr.length, maxLength]

theorem jno (rel : Byte) : Statement (.jno rel) := by
  simp [Statement, encode, Instr.length, maxLength]

theorem jc (rel : Byte) : Statement (.jc rel) := by
  simp [Statement, encode, Instr.length, maxLength]

theorem jnc (rel : Byte) : Statement (.jnc rel) := by
  simp [Statement, encode, Instr.length, maxLength]

theorem jz (rel : Byte) : Statement (.jz rel) := by
  simp [Statement, encode, Instr.length, maxLength]

theorem jnz (rel : Byte) : Statement (.jnz rel) := by
  simp [Statement, encode, Instr.length, maxLength]

theorem js (rel : Byte) : Statement (.js rel) := by
  simp [Statement, encode, Instr.length, maxLength]

theorem jns (rel : Byte) : Statement (.jns rel) := by
  simp [Statement, encode, Instr.length, maxLength]

theorem jl (rel : Byte) : Statement (.jl rel) := by
  simp [Statement, encode, Instr.length, maxLength]

theorem jle (rel : Byte) : Statement (.jle rel) := by
  simp [Statement, encode, Instr.length, maxLength]

theorem addRmImm8 (rm : RM) (imm : Byte) : Statement (.addRmImm8 rm imm) := by
  have h := rm_encode_length 0 rm
  simp [Statement, encode, Instr.length, maxLength] at h ⊢
  omega

theorem subRmImm8 (rm : RM) (imm : Byte) : Statement (.subRmImm8 rm imm) := by
  have h := rm_encode_length 5 rm
  simp [Statement, encode, Instr.length, maxLength] at h ⊢
  omega

theorem cmpRmImm8 (rm : RM) (imm : Byte) : Statement (.cmpRmImm8 rm imm) := by
  have h := rm_encode_length 7 rm
  simp [Statement, encode, Instr.length, maxLength] at h ⊢
  omega

theorem movRmR32 (rm : RM) (src : Reg) : Statement (.movRmR32 rm src) := by
  have h := rm_encode_length src.bits rm
  simp [Statement, encode, Instr.length, maxLength] at h ⊢
  omega

theorem movR32Rm (dst : Reg) (rm : RM) : Statement (.movR32Rm dst rm) := by
  have h := rm_encode_length dst.bits rm
  simp [Statement, encode, Instr.length, maxLength] at h ⊢
  omega

theorem movR32Imm32 (dst : Reg) (imm : Word) : Statement (.movR32Imm32 dst imm) := by
  simp [Statement, encode, Instr.length, maxLength]

theorem ret : Statement (.ret) := by
  simp [Statement, encode, Instr.length, maxLength]

theorem movRmImm32 (ignored : BitVec 3) (rm : RM) (imm : Word) : Statement (.movRmImm32 ignored rm imm) := by
  have h := rm_encode_length ignored rm
  simp [Statement, encode, Instr.length, maxLength] at h ⊢
  omega

theorem leave : Statement (.leave) := by
  simp [Statement, encode, Instr.length, maxLength]

theorem callRel32 (rel : Word) : Statement (.callRel32 rel) := by
  simp [Statement, encode, Instr.length, maxLength]

theorem jmpRel32 (rel : Word) : Statement (.jmpRel32 rel) := by
  simp [Statement, encode, Instr.length, maxLength]

theorem jmpRel8 (rel : Byte) : Statement (.jmpRel8 rel) := by
  simp [Statement, encode, Instr.length, maxLength]

theorem incRm (rm : RM) : Statement (.incRm rm) := by
  have h := rm_encode_length 0 rm
  simp [Statement, encode, Instr.length, maxLength] at h ⊢
  omega

end Sys2Proof.Laws.EncodedLength
end

