-- ==== Sys2Proof/Laws/Run.lean ====
section
/-! SUPPORT. Runs: one step at the head of a run, so that no proof unfolds the host's `Core.run`; and that the bytes
the decoder is shown are never too few. -/

namespace Sys2Proof.Machine

theorem run_next (M : Host.Core) {n : Nat} {s t : M.State} (h : M.step s = .next t) :
    M.run (n + 1) s = M.run n t := by
  rw [Host.Core.run, h]

theorem run_fault (M : Host.Core) {n : Nat} {s : M.State} {f : M.Fault} (h : M.step s = .fault f) :
    M.run (n + 1) s = .fault f := by
  rw [Host.Core.run, h]

theorem run_refused (M : Host.Core) {n : Nat} {s : M.State} {r : M.Refusal} (h : M.step s = .refused r) :
    M.run (n + 1) s = .refused r := by
  rw [Host.Core.run, h]

theorem reaches_zero (s t : State) : reaches 0 s t ↔ t = s := by
  unfold reaches
  constructor
  · intro h
    exact (Host.Outcome.next.inj h).symm
  · rintro rfl
    rfl

/-- A run of one more step is a step and a run. -/
theorem reaches_succ (n : Nat) (s t : State) : reaches (n + 1) s t ↔ ∃ u, step s = .next u ∧ reaches n u t := by
  unfold reaches
  constructor
  · intro h
    cases hs : step s with
    | next u => exact ⟨u, rfl, (run_next Sys2Proof.core hs).symm.trans h⟩
    | fault f => exact absurd ((run_fault Sys2Proof.core (n := n) hs).symm.trans h) (by simp)
    | refused r => exact absurd ((run_refused Sys2Proof.core (n := n) hs).symm.trans h) (by simp)
  · rintro ⟨u, hs, h⟩
    exact (run_next Sys2Proof.core hs).trans h

end Sys2Proof.Machine

namespace Sys2Proof

/-- Six bytes always hold the ModRM bytes, and at most six are consumed (R54, R69). -/
theorem takeModRM_of_length {bs : List Byte} (h : 6 ≤ bs.length) :
    ∃ p, takeModRM bs = .ok p ∧ bs.length ≤ p.2.length + 6 := by
  rcases bs with _ | ⟨a0, _ | ⟨a1, _ | ⟨a2, _ | ⟨a3, _ | ⟨a4, _ | ⟨a5, bs⟩⟩⟩⟩⟩⟩ <;> simp at h
  simp only [takeModRM, takeByte_cons, Machine.ok_bind, takeMemForm, takeWord]
  split
  · exact ⟨_, rfl, by simp⟩
  · repeat' split
    all_goals exact ⟨_, rfl, by simp⟩

/-- Eleven bytes always hold an instruction: the decoder never answers `truncated` on the bytes of a step. -/
theorem decode_ne_truncated {bs : List Byte} (h : maxLength ≤ bs.length) : decode bs ≠ .error .truncated := by
  rcases bs with _ | ⟨op, bs⟩
  · simp [maxLength] at h
  simp only [maxLength, List.length_cons] at h
  obtain ⟨⟨⟨reg, rm⟩, bs'⟩, hm, hl⟩ := takeModRM_of_length (bs := bs) (by omega)
  simp only at hl
  obtain ⟨w, hw, -⟩ := takeWord_of_length (n := 0) (bs := bs) (by omega)
  obtain ⟨w', hw', -⟩ := takeWord_of_length (n := 0) (bs := bs') (by omega)
  obtain ⟨b, hb, -⟩ := takeByte_of_length (n := 0) (bs := bs) (by omega)
  obtain ⟨b', hb', -⟩ := takeByte_of_length (n := 0) (bs := bs') (by omega)
  simp only [decode, takeByte_cons, Machine.ok_bind]
  cases dispatch op with
  | none => simp
  | some handler =>
    cases handler <;>
      simp only [decodeRest, decodeModRM, decodeByte, decodeWord, decodeGroup83, decodeGroupFF, decodeC7, hm, hw, hw',
        hb, hb', Machine.ok_bind, ne_eq, reduceCtorEq, not_false_eq_true] <;>
      try (split <;> simp)

end Sys2Proof
end

