-- ==== Sys2Proof/Tests/Slice0.lean ====
section
/-! SUPPORT. Tests: ill-formed terms, words written out from the encodings, the spec's vectors one step each, and a
witness for the hypotheses of every statement. Expected results are those of spec/95_test_vectors.md, whose vector is
named beside each, or are worked out by hand from the rule named. -/

namespace Sys2Proof.Tests

open Sys2Proof.Machine Sys2Proof.Claims

/-! ### The state of the vectors -/

/-- The launch of the vectors: the defaults, with the open parameter set to `sign`. -/
def launch : Launch where
  memSize := 0x100000
  loadBase := 0x7C00
  esp0 := 0x7C00
  pushImm8Extend := .sign

/-- Reset with some code at `0x7C00`. -/
def start (code : List Byte) : State :=
  { State.atLaunch launch with mem := Memory.loadBytes [] 0x7C00 code }

/-- The state with some bytes of memory changed. -/
def put (s : State) (a : Nat) (bs : List Byte) : State := { s with mem := s.mem.loadBytes a bs }

/-- The state with other flags. -/
def flags (s : State) (w : Word) : State := { s with eflags := w }

/-- A running state with `pc` at some code. -/
def at_ (pc : Word) (code : List Byte) : State := (put (start []) pc.toNat code).jump pc

/-- A look at the state after one step; nothing if there is none. -/
def look {α : Type} (s : State) (f : State → α) : Option α :=
  match step s with
  | .next t => some (f t)
  | .fault _ => none
  | .refused _ => none

/-- A look at the state `exec` answers. -/
def lookExec {α : Type} (i : Instr) (s : State) (f : State → α) : Option α :=
  match exec i s with
  | .next t => some (f t)
  | .fault _ => none
  | .refused _ => none

/-- The decoder's answer, with the number of bytes left. -/
def reads (bs : List Byte) : Option (Instr × Nat) :=
  match decode bs with
  | .ok (i, rest) => some (i, rest.length)
  | .error _ => none

/-- Four bytes of memory. -/
def bytes4 (s : State) (a : Nat) : List Byte :=
  [s.mem.read a, s.mem.read (a + 1), s.mem.read (a + 2), s.mem.read (a + 3)]

/-! ### Well-formedness: each check refuses a term -/

theorem test_wf_ind_esp : (Instr.incRm (.mem (.ind .esp))).wellFormed = false := by decide
theorem test_wf_ind_ebp : (Instr.incRm (.mem (.ind .ebp))).wellFormed = false := by decide
theorem test_wf_disp8_esp : (Instr.movR32Rm .eax (.mem (.disp8 .esp 0))).wellFormed = false := by decide
theorem test_wf_disp32_esp : (Instr.movRmImm32 0 (.mem (.disp32 .esp 0)) 1).wellFormed = false := by decide
theorem test_wf_disp8_ebp : (Instr.movR32Rm .eax (.mem (.disp8 .ebp 0))).wellFormed = true := by decide

/-! ### Decoding: words written out bit by bit from R52, R63 and R66 -/

theorem test_decode_add_rm_r32 : reads [0b00000001, 0b11001000] = some (.addRmR32 (.reg .eax) .ecx, 0) := by decide
theorem test_decode_cmp_r32_rm : reads [0b00111011, 0b11000001] = some (.cmpR32Rm .eax (.reg .ecx), 0) := by decide
theorem test_decode_push_r32 : reads [0b01010110] = some (.pushR32 .esi, 0) := by decide
theorem test_decode_pop_r32 : reads [0b01011101] = some (.popR32 .ebp, 0) := by decide
theorem test_decode_push_imm32 : reads [0b01101000, 1, 0, 0, 0x80] = some (.pushImm32 0x80000001, 0) := by decide
theorem test_decode_push_imm8 : reads [0b01101010, 0x2A] = some (.pushImm8 0x2A, 0) := by decide
theorem test_decode_jo : reads [0b01110000, 5] = some (.jo 5, 0) := by decide
theorem test_decode_jno : reads [0b01110001, 5] = some (.jno 5, 0) := by decide
theorem test_decode_jc : reads [0b01110010, 5] = some (.jc 5, 0) := by decide
theorem test_decode_jnc : reads [0b01110011, 5] = some (.jnc 5, 0) := by decide
theorem test_decode_jz : reads [0b01110100, 5] = some (.jz 5, 0) := by decide
theorem test_decode_jnz : reads [0b01110101, 0xF9] = some (.jnz 0xF9, 0) := by decide
theorem test_decode_js : reads [0b01111000, 5] = some (.js 5, 0) := by decide
theorem test_decode_jns : reads [0b01111001, 5] = some (.jns 5, 0) := by decide
theorem test_decode_jl : reads [0b01111100, 5] = some (.jl 5, 0) := by decide
theorem test_decode_jle : reads [0b01111110, 5] = some (.jle 5, 0) := by decide
theorem test_decode_add_imm8 : reads [0b10000011, 0b11000000, 0xFF] = some (.addRmImm8 (.reg .eax) 0xFF, 0) := by
  decide
/-- E13: mod 3, reg 5, rm 3. -/
theorem test_decode_sub_imm8 : reads [0b10000011, 0b11101011, 3] = some (.subRmImm8 (.reg .ebx) 3, 0) := by decide
theorem test_decode_cmp_imm8 :
    reads [0b10000011, 0b01111101, 0xFC, 0] = some (.cmpRmImm8 (.mem (.disp8 .ebp 0xFC)) 0, 0) := by decide
theorem test_decode_mov_rm_r32 : reads [0b10001001, 0b11100101] = some (.movRmR32 (.reg .ebp) .esp, 0) := by decide
theorem test_decode_mov_r32_rm :
    reads [0b10001011, 0b10000000, 0, 1, 0, 0] = some (.movR32Rm .eax (.mem (.disp32 .eax 0x100)), 0) := by decide
theorem test_decode_mov_r32_imm32 :
    reads [0b10111111, 0x78, 0x56, 0x34, 0x12] = some (.movR32Imm32 .edi 0x12345678, 0) := by decide
theorem test_decode_ret : reads [0b11000011, 0x90] = some (.ret, 1) := by decide
theorem test_decode_mov_rm_imm32 :
    reads [0b11000111, 0b00000101, 0, 0x80, 0, 0, 0xEF, 0xBE, 0xAD, 0xDE] =
      some (.movRmImm32 0 (.mem (.abs 0x8000)) 0xDEADBEEF, 0) := by decide
theorem test_decode_leave : reads [0b11001001] = some (.leave, 0) := by decide
theorem test_decode_call : reads [0b11101000, 5, 0, 0, 0] = some (.callRel32 5, 0) := by decide
theorem test_decode_jmp32 : reads [0b11101001, 0xEA, 0x83, 0xFF, 0xFF] = some (.jmpRel32 0xFFFF83EA, 0) := by decide
theorem test_decode_jmp8 : reads [0b11101011, 0xFE] = some (.jmpRel8 0xFE, 0) := by decide
theorem test_decode_inc : reads [0b11111111, 0b00000000] = some (.incRm (.mem (.ind .eax)), 0) := by decide
/-- V-E7: the SIB byte and the displacement after it are consumed (R54). -/
theorem test_decode_sib :
    reads [0b10001011, 0b01000100, 0x24, 8, 0x90] = some (.movR32Rm .eax (.mem (.sibDisp8 0x24 8)), 1) := by decide

/-- No two rows of the opcode map cover one byte: rows with different masked patterns. -/
theorem test_rows_disjoint :
    opcodeMap.Pairwise (fun a b => a.pattern &&& b.mask ≠ b.pattern &&& a.mask) := by decide

theorem test_group83_none : decode [0x83, 0xC8, 1] = .error (.groupVariant 0x83 1 (.reg .eax)) := by decide
theorem test_groupFF_none : decode [0xFF, 0xC8] = .error (.groupVariant 0xFF 1 (.reg .eax)) := by decide
theorem test_two_byte_escape : decode [0x0F, 5] = .error (.emptyEntry 0x0F) := by decide
theorem test_short_bytes : decode [0xE9, 0, 0, 0] = .error .truncated := by decide

/-- The word `0xC801`, numbered as the opcode table numbers bits, is `01 C8`. -/
theorem test_table_word : decodeTableWord 16 0xC801 = some (.addRmR32 (.reg .eax) .ecx) := by decide
/-- Operand bytes the table gives no bits are 0. -/
theorem test_table_word_short : decodeTableWord 8 0xE9 = some (.jmpRel32 0) := by decide

/-- From reset, the first step runs the placed instruction. -/
theorem test_first_step : look (State.reset.withFetchWord 16 0xC801) (fun t => (t.x.eax, t.pc, t.status)) =
    some (0, 0x7C02, .running) := by decide
/-- With nothing placed, memory is zero and `00` is an empty entry (V-X3). -/
theorem test_bare_reset : look State.reset (fun t => (t.pc, t.status)) =
    some (0x7C00, .halted (.unimplementedOpcode 0x00 none 0x7C00)) := by decide

/-! ### Flags (V-F1 to V-F14) -/

theorem test_flags :
    ([(5, 3, 0x000), (3, 5, 0x081), (0, 0, 0x040), (0x80000000, 1, 0x800), (0x7FFFFFFF, 0xFFFFFFFF, 0x881),
      (3, 0xFFFFFFFF, 0x001), (0xFFFFFFFF, 0xFFFFFFFF, 0x040)] : List (Word × Word × Word)).all
      (fun (v1, v2, w) => subFlags 0 v1 v2 == w) = true := by decide

theorem test_flags_more :
    ([(0, 1, 0x081), (0x80000000, 0x7FFFFFFF, 0x800), (0x7FFFFFFF, 0x80000000, 0x881), (1, 0x80000000, 0x881),
      (0xFFFFFFFF, 0, 0x080), (0x80000000, 0x80000000, 0x040), (0, 0x80000000, 0x881)] : List (Word × Word × Word)).all
      (fun (v1, v2, w) => subFlags 0 v1 v2 == w) = true := by decide

/-- All four flags are overwritten and no other bit is (R80, R26). -/
theorem test_flags_keep : subFlags 0xFFFFFFFF 5 3 = 0xFFFFF73E := by decide

/-! ### Arithmetic (V-A) -/

/-- V-A1. -/
theorem test_add_wraps :
    look (flags (((start [0x01, 0xC8]).setReg .eax 0xFFFFFFFF).setReg .ecx 2) 0x841)
      (fun t => (t.x.eax, t.pc, t.eflags)) = some (1, 0x7C02, 0x841) := by decide
/-- V-A3. -/
theorem test_add_memory :
    look ((put (start [0x01, 0x05, 0x00, 0x80, 0x00, 0x00]) 0x8000 [0xFE, 0xFF, 0xFF, 0xFF]).setReg .eax 5)
      (fun t => (bytes4 t 0x8000, t.pc, t.eflags)) = some ([3, 0, 0, 0], 0x7C06, 0) := by decide
/-- V-A4. -/
theorem test_add_imm_sign :
    look (flags (start [0x83, 0xC0, 0xFF]) 0x040) (fun t => (t.x.eax, t.pc, t.eflags)) =
      some (0xFFFFFFFF, 0x7C03, 0x040) := by decide
/-- V-A6. -/
theorem test_sub_imm_sign :
    look ((start [0x83, 0xE8, 0x80]).setReg .eax 0x7FFFFFFF) (fun t => (t.x.eax, t.pc, t.eflags)) =
      some (0x8000007F, 0x7C03, 0x881) := by decide
/-- V-A7. -/
theorem test_sub_memory :
    look ((put (start [0x83, 0x6D, 0xFC, 0x01]) 0x7BEC [0, 0, 0, 0x80]).setReg .ebp 0x7BF0)
      (fun t => (bytes4 t 0x7BEC, t.pc, t.eflags)) = some ([0xFF, 0xFF, 0xFF, 0x7F], 0x7C04, 0x800) := by decide
/-- V-A8. -/
theorem test_cmp_imm :
    look ((start [0x83, 0xF8, 0x05]).setReg .eax 5) (fun t => (t.x.eax, t.pc, t.eflags)) =
      some (5, 0x7C03, 0x040) := by decide
/-- V-A10. -/
theorem test_inc_keeps_flags :
    look (flags ((start [0xFF, 0xC0]).setReg .eax 0xFFFFFFFF) 0x881) (fun t => (t.x.eax, t.pc, t.eflags)) =
      some (0, 0x7C02, 0x881) := by decide
/-- V-A11. -/
theorem test_inc_memory :
    look (put (start [0xFF, 0x05, 0x00, 0x80, 0x00, 0x00]) 0x8000 [0xFF]) (fun t => (bytes4 t 0x8000, t.pc)) =
      some ([0, 1, 0, 0], 0x7C06) := by decide
/-- V-A12: the register is the minuend. -/
theorem test_cmp_reg_order :
    look (((start [0x3B, 0xC1]).setReg .eax 1).setReg .ecx 2) (fun t => (t.x.eax, t.pc, t.eflags)) =
      some (1, 0x7C02, 0x081) := by decide
/-- V-A15. -/
theorem test_group83_stop :
    look (start [0x83, 0xC8, 0x01]) (fun t => (t.pc, t.status)) =
      some (0x7C00, .halted (.unimplementedOpcode 0x83 (some 1) 0x7C00)) := by decide
/-- V-A16. -/
theorem test_groupFF_stop :
    look (start [0xFF, 0xC8]) (fun t => (t.pc, t.status)) =
      some (0x7C00, .halted (.unimplementedOpcode 0xFF (some 1) 0x7C00)) := by decide

/-! ### Data movement (V-M) -/

/-- V-M2. -/
theorem test_mov_store :
    look (((start [0x89, 0x45, 0x08]).setReg .eax 0xCAFEF00D).setReg .ebp 0x7BF0)
      (fun t => (bytes4 t 0x7BF8, t.pc)) = some ([0x0D, 0xF0, 0xFE, 0xCA], 0x7C03) := by decide
/-- V-M1. -/
theorem test_mov_rm_register :
    look ((start [0x89, 0xC8]).setReg .ecx 0xDEADBEEF) (fun t => (t.x.eax, t.pc)) = some (0xDEADBEEF, 0x7C02) := by
  decide
/-- V-M3. -/
theorem test_mov_load :
    look ((put (start [0x8B, 0x45, 0xF8]) 0x7BE8 [0x44, 0x33, 0x22, 0x11]).setReg .ebp 0x7BF0)
      (fun t => (t.x.eax, t.pc)) = some (0x11223344, 0x7C03) := by decide
/-- V-M6: a misaligned access, with `[disp32]`. -/
theorem test_mov_misaligned :
    look (put (start [0x8B, 0x05, 0x01, 0x80, 0x00, 0x00]) 0x8000 [0x11, 0x22, 0x33, 0x44, 0x55])
      (fun t => (t.x.eax, t.pc)) = some (0x55443322, 0x7C06) := by decide
/-- V-M8. -/
theorem test_mov_r32_imm32 :
    look (start [0xBF, 0x78, 0x56, 0x34, 0x12]) (fun t => (t.x.edi, t.pc)) = some (0x12345678, 0x7C05) := by decide
/-- V-E10: the immediate lies outside memory. -/
theorem test_mov_r32_imm32_end :
    look (at_ 0xFFFFF [0xB8]) (fun t => (t.pc, t.status)) =
      some (0xFFFFF, .halted (.outOfBoundsAccess 0x100000 0xFFFFF)) := by decide
/-- V-M11. -/
theorem test_mov_rm_imm32 :
    look (start [0xC7, 0x05, 0x00, 0x80, 0x00, 0x00, 0xEF, 0xBE, 0xAD, 0xDE]) (fun t => (bytes4 t 0x8000, t.pc)) =
      some ([0xEF, 0xBE, 0xAD, 0xDE], 0x7C0A) := by decide
/-- V-M12: the `reg` field is not examined. -/
theorem test_mov_rm_imm32_reg :
    look (start [0xC7, 0xD8, 0x01, 0x00, 0x00, 0x00]) (fun t => (t.x.eax, t.pc)) = some (1, 0x7C06) := by decide
/-- V-M13. -/
theorem test_mov_rm_imm32_sib :
    look (start [0xC7, 0x04, 0x24, 0x01, 0x00, 0x00, 0x00]) (fun t => (t.pc, t.status)) =
      some (0x7C00, .halted (.unimplementedAddressingMode 0 4 0x24 0x7C00)) := by decide

/-! ### Stack (V-S) -/

/-- V-S1. -/
theorem test_push :
    look ((start [0x50]).setReg .eax 0x11223344) (fun t => (t.x.esp, bytes4 t 0x7BFC, t.pc)) =
      some (0x7BFC, [0x44, 0x33, 0x22, 0x11], 0x7C01) := by decide
/-- V-S2. -/
theorem test_push_esp :
    look (start [0x54]) (fun t => (t.x.esp, bytes4 t 0x7BFC)) = some (0x7BFC, [0x00, 0x7C, 0, 0]) := by decide
/-- V-S9: `ESP - 4` wraps. -/
theorem test_push_out_of_bounds :
    look ((start [0x50]).setReg .esp 2) (fun t => (t.x.esp, t.pc, t.status)) =
      some (2, 0x7C00, .halted (.outOfBoundsAccess 0xFFFFFFFE 0x7C00)) := by decide
/-- V-S3. -/
theorem test_pop :
    look ((put (start [0x58]) 0x7BF0 [0xEF, 0xBE, 0xAD, 0xDE]).setReg .esp 0x7BF0)
      (fun t => (t.x.eax, t.x.esp, t.pc)) = some (0xDEADBEEF, 0x7BF4, 0x7C01) := by decide
/-- V-S4. -/
theorem test_pop_esp :
    look ((put (start [0x5C]) 0x7BF0 [0x78, 0x56, 0x34, 0x12]).setReg .esp 0x7BF0) (fun t => (t.x.esp, t.pc)) =
      some (0x12345678, 0x7C01) := by decide
/-- V-S6. -/
theorem test_push_imm32 :
    look (start [0x68, 0x01, 0x00, 0x00, 0x80]) (fun t => (t.x.esp, bytes4 t 0x7BFC, t.pc)) =
      some (0x7BFC, [1, 0, 0, 0x80], 0x7C05) := by decide
/-- V-S7a. -/
theorem test_push_imm8_sign :
    look (start [0x6A, 0x80]) (fun t => (t.x.esp, bytes4 t 0x7BFC, t.pc)) =
      some (0x7BFC, [0x80, 0xFF, 0xFF, 0xFF], 0x7C02) := by decide
/-- V-S7b. -/
theorem test_push_imm8_zero :
    look { start [0x6A, 0x80] with launch := { launch with pushImm8Extend := .zero } }
      (fun t => (t.x.esp, bytes4 t 0x7BFC, t.pc)) = some (0x7BFC, [0x80, 0, 0, 0], 0x7C02) := by decide
/-- V-S11. -/
theorem test_call :
    look (start [0xE8, 0x10, 0x00, 0x00, 0x00]) (fun t => (t.x.esp, bytes4 t 0x7BFC, t.pc)) =
      some (0x7BFC, [0x05, 0x7C, 0, 0], 0x7C15) := by decide
/-- V-S13: a call to address 0 completes and ends the run normally. -/
theorem test_call_zero :
    look (start [0xE8, 0xFB, 0x83, 0xFF, 0xFF]) (fun t => (t.x.esp, bytes4 t 0x7BFC, t.pc, t.status)) =
      some (0x7BFC, [0x05, 0x7C, 0, 0], 0, .halted .normalEnd) := by decide
/-- V-S15. -/
theorem test_ret :
    look ((put (start [0xC3]) 0x7BFC [0x10, 0x7C]).setReg .esp 0x7BFC) (fun t => (t.x.esp, t.pc, t.status)) =
      some (0x7C00, 0x7C10, .running) := by decide
/-- V-S16. -/
theorem test_ret_zero :
    look ((start [0xC3]).setReg .esp 0x7BFC) (fun t => (t.x.esp, t.pc, t.status)) =
      some (0x7C00, 0, .halted .normalEnd) := by decide
/-- V-S17. -/
theorem test_leave :
    look (((put (start [0xC9]) 0x7BF0 [0xDD, 0xCC, 0xBB, 0xAA]).setReg .ebp 0x7BF0).setReg .esp 0x7BE0)
      (fun t => (t.x.esp, t.x.ebp, t.pc)) = some (0x7BF4, 0xAABBCCDD, 0x7C01) := by decide
/-- V-S18: `ESP` is as before the instruction. -/
theorem test_leave_rolled_back :
    look (((start [0xC9]).setReg .ebp 0xFFFFFFFE).setReg .esp 0x7BE0) (fun t => (t.x.esp, t.status)) =
      some (0x7BE0, .halted (.outOfBoundsAccess 0xFFFFFFFE 0x7C00)) := by decide

/-! ### Control flow (V-C) -/

/-- V-C2. -/
theorem test_jmp8_back : look (start [0xEB, 0x80]) (fun t => t.pc) = some 0x7B82 := by decide
/-- V-C3. -/
theorem test_jmp8_forward : look (start [0xEB, 0x7F]) (fun t => t.pc) = some 0x7C81 := by decide
/-- V-C5: the target is not checked until the next step. -/
theorem test_jmp32_outside :
    look (start [0xE9, 0xFB, 0x83, 0x0F, 0x00]) (fun t => (t.pc, t.status)) = some (0x100000, .running) := by decide
/-- V-C6. -/
theorem test_jz_taken : look (flags (start [0x74, 0xF0]) 0x040) (fun t => t.pc) = some 0x7BF2 := by decide
/-- V-C7. -/
theorem test_jnz_not_taken : look (flags (start [0x75, 0xF0]) 0x040) (fun t => t.pc) = some 0x7C02 := by decide
/-- V-C10: the displacement is fetched whatever the flags. -/
theorem test_jz_fetch :
    look (at_ 0xFFFFF [0x74]) (fun t => t.status) = some (.halted (.outOfBoundsAccess 0x100000 0xFFFFF)) := by decide

/-- V-C8: the truth table, one row per condition, one column per start value of the flags. -/
theorem test_conditions :
    let columns : List Word := [0x000, 0x001, 0x040, 0x080, 0x800, 0x880, 0x840, 0x8C0]
    columns.map condO = [false, false, false, false, true, true, true, true] ∧
    columns.map condNO = [true, true, true, true, false, false, false, false] ∧
    columns.map condC = [false, true, false, false, false, false, false, false] ∧
    columns.map condNC = [true, false, true, true, true, true, true, true] ∧
    columns.map condZ = [false, false, true, false, false, false, true, true] ∧
    columns.map condNZ = [true, true, false, true, true, true, false, false] ∧
    columns.map condS = [false, false, false, true, false, true, false, true] ∧
    columns.map condNS = [true, true, true, false, true, false, true, false] ∧
    columns.map condL = [false, false, false, true, true, false, true, false] ∧
    columns.map condLE = [false, false, true, true, true, false, true, true] := by decide

/-- V-C8, `SF` alone set: which of the ten jumps go to the target. -/
theorem test_jumps :
    ([0x70, 0x71, 0x72, 0x73, 0x74, 0x75, 0x78, 0x79, 0x7C, 0x7E] : List Byte).map
      (fun op => look (flags (start [op, 0x10]) 0x080) (fun t => t.pc == 0x7C12)) =
      [some false, some true, some false, some true, some false, some true, some true, some false, some true,
        some true] := by decide

/-! ### Operand forms and stops (V-E, V-X) -/

/-- V-M4, `[EAX]`. -/
theorem test_ea_ind :
    look ((put (start [0x8B, 0x00]) 0x8000 [1, 2, 3, 4]).setReg .eax 0x8000) (fun t => (t.x.eax, t.pc)) =
      some (0x04030201, 0x7C02) := by decide
/-- V-M5, `[EAX + disp32]`. -/
theorem test_ea_disp32 :
    look ((put (start [0x8B, 0x80, 0x00, 0x01, 0x00, 0x00]) 0x8000 [0xAA, 0xBB, 0xCC, 0xDD]).setReg .eax 0x7F00)
      (fun t => (t.x.eax, t.pc)) = some (0xDDCCBBAA, 0x7C06) := by decide
/-- V-E7. -/
theorem test_sib_stop :
    look (start [0x8B, 0x44, 0x24, 0x08]) (fun t => (t.pc, t.status)) =
      some (0x7C00, .halted (.unimplementedAddressingMode 1 4 0x24 0x7C00)) := by decide
/-- V-E9: no partial write. -/
theorem test_no_partial_write :
    look ((start [0x89, 0x05, 0xFE, 0xFF, 0x0F, 0x00]).setReg .eax 0x11223344)
      (fun t => (t.mem.read 0xFFFFE, t.mem.read 0xFFFFF, t.status)) =
      some (0, 0, .halted (.outOfBoundsAccess 0xFFFFE 0x7C00)) := by decide
/-- V-X1. -/
theorem test_empty_entry :
    look (start [0xD6]) (fun t => (t.pc, t.status)) =
      some (0x7C00, .halted (.unimplementedOpcode 0xD6 none 0x7C00)) := by decide
/-- V-X4 and V-X5: the sub-opcode is checked before the address. -/
theorem test_stop_priority :
    look (start [0x83, 0x04, 0x24, 0x05]) (fun t => t.status) =
        some (.halted (.unimplementedAddressingMode 0 4 0x24 0x7C00)) ∧
      look (start [0x83, 0x0C, 0x24, 0x05]) (fun t => t.status) =
        some (.halted (.unimplementedOpcode 0x83 (some 1) 0x7C00)) := by decide
/-- V-X6. -/
theorem test_eip_out_of_range :
    look ((start []).jump 0x100000) (fun t => (t.pc, t.status)) =
      some (0x100000, .halted (.eipOutOfRange 0x100000)) := by decide
/-- V-X7: `pc = 0` before an instruction does not end the run. -/
theorem test_zero_pc_starts :
    look (at_ 0 [0xB8, 1, 0, 0, 0]) (fun t => (t.x.eax, t.pc, t.status)) = some (1, 5, .running) := by decide
/-- V-X8. -/
theorem test_halted_has_no_step : look ((start [0x50]).halt .normalEnd) (fun t => t.pc) = none := by decide

/-! ### The byte registers and the boundary (V-B, R118, R132, R133) -/

def regs : Regs := (start []).x.set .eax 0x11223344

theorem test_read_byte_registers : regs.readRegister8 0 = some 0x44 ∧ regs.readRegister8 4 = some 0x33 := by decide
theorem test_write_low_byte : (regs.writeRegister8 0 0xAA).map (·.eax) = some 0x112233AA := by decide
theorem test_write_high_byte : (regs.writeRegister8 4 0xAA).map (·.eax) = some 0x1122AA44 := by decide
theorem test_write_bh_bl :
    (regs.writeRegister8 7 0x55).map (·.ebx) = some 0x5500 ∧ (regs.writeRegister8 3 0x66).map (·.ebx) = some 0x66 := by
  decide
theorem test_byte_register_refused : regs.readRegister8 8 = none := by decide

theorem test_stop_codes :
    [Stop.normalEnd, .unimplementedOpcode 0 none 0, .unimplementedAddressingMode 0 0 0 0, .outOfBoundsAccess 0 0,
      .eipOutOfRange 0].map Stop.code = [0, 1, 2, 3, 4] := by decide
theorem test_console_output : portOut8 0x3F8 0x41 = some 0x41 ∧ portOut8 0x3F9 0x41 = none := by decide
theorem test_console_input :
    portIn8 0 0x3F8 none = .suspended ∧ portIn8 0 0x3F8 (some 0x41) = .value 0x41 := by decide
theorem test_snapshot : ((start []).snapshot.eip, (start []).snapshot.status) = (0x7C00, .running) := by decide
theorem test_image_too_long : (State.construct { launch with memSize := 0x7C01 } [1, 2]).isNone = true := by decide
theorem test_names : [Instr.jc 0, .ret, .incRm (.reg .eax)].map Instr.name = ["JC", "RET", "INC"] := by decide
/-- P1's `JMP 0` at `7C11`: the displacement of R75 is `FFFF83EA`. -/
theorem test_relTo : relTo 0x7C11 0 5 = 0xFFFF83EA := by decide

/-! ### Witnesses: states and operands that meet the hypotheses of each statement, clause by clause

`here` has all its code bytes in memory; in `edge n` only the first `n` bytes from `pc` on are. -/

def here : State := start []

def edge (n : Nat) : State := (start []).jump (0x100000 - BitVec.ofNat 32 n)

theorem look_some {α : Type} {s : State} {f : State → α} {v : α} (h : look s f = some v) :
    ∃ t, step s = .next t ∧ f t = v := by
  unfold look at h
  cases hs : step s with
  | next t => rw [hs] at h; exact ⟨t, rfl, Option.some.inj h⟩
  | fault f => rw [hs] at h; exact absurd h (by simp)
  | refused r => rw [hs] at h; exact absurd h (by simp)

theorem lookExec_some {α : Type} {i : Instr} {s : State} {f : State → α} {v : α} (h : lookExec i s f = some v) :
    ∃ t, exec i s = .next t ∧ f t = v := by
  unfold lookExec at h
  cases hs : exec i s with
  | next t => rw [hs] at h; exact ⟨t, rfl, Option.some.inj h⟩
  | fault f => rw [hs] at h; exact absurd h (by simp)
  | refused r => rw [hs] at h; exact absurd h (by simp)

/-- The smallest memory, and an image that ends at its last byte. -/
theorem witness_ResetState :
    (State.construct { launch with memSize := 4, loadBase := 2 } [1, 2]).isSome = true ∧
      (State.construct { launch with memSize := 2 ^ 32, loadBase := 0xFFFFFFFF } [1]).isSome = true ∧
      (State.construct { launch with memSize := 3, loadBase := 0 } []).isNone = true := by decide

theorem witness_ResetMeetsInvariant : (State.construct launch [0x50]).isSome = true := by decide

theorem witness_RegisterReadAfterWrite : Reg.edi ≠ Reg.eax := by decide

theorem witness_ByteRegisterInterface :
    0 < 4 ∧ 3 < 4 ∧ (4 ≤ 4 ∧ 4 < 8) ∧ (4 ≤ 7 ∧ 7 < 8) ∧ 8 ≤ 8 := by decide

theorem witness_FlagPlacesAndSetters : 31 < 32 ∧ 31 ≠ Flag.cf.bit ∧ 0 < 32 ∧ 0 ≠ Flag.of.bit := by decide

theorem witness_UpdateFlagsSubWritesFourFlags : 1 ≠ 0 ∧ 1 ≠ 6 ∧ 1 ≠ 7 ∧ 1 ≠ 11 ∧ 31 ≠ 0 ∧ 31 ≠ 6 := by decide

/-- A word at the end of memory, a word that wraps where memory is 2^32 bytes, and the last byte. -/
theorem witness_MemoryIsLittleEndian :
    here.memRead32 0xFFFFC = .ok 0 ∧ (here.memWrite32 0xFFFFC 1).isOk = true ∧
      ({ here with launch := { launch with memSize := 2 ^ 32 } } : State).memRead32 0xFFFFFFFE = .ok 0 ∧
      (here.memWrite8 0xFFFFF 1).isOk = true := by decide

theorem witness_AccessesAreBoundsChecked :
    (0xFFFFF : Word).toNat < here.launch.memSize ∧ here.launch.memSize ≤ (0x100000 : Word).toNat ∧
      (∀ j < 4, ((0xFFFFC : Word) + BitVec.ofNat 32 j).toNat < here.launch.memSize) ∧
      here.launch.memSize ≤ ((0xFFFFD : Word) + BitVec.ofNat 32 3).toNat := by decide

theorem witness_PopAfterPushRestores :
    here.inBounds4 (here.x.esp - 4) = true ∧
      (here.setReg .esp 3).inBounds4 ((here.setReg .esp 3).x.esp - 4) = false ∧
      (here.setReg .esp 0xFFFFC).inBounds4 (here.setReg .esp 0xFFFFC).x.esp = true ∧
      (here.setReg .esp 0xFFFFD).inBounds4 (here.setReg .esp 0xFFFFD).x.esp = false := by decide

theorem witness_DecodeOfEncode : (Instr.movRmImm32 7 (.mem (.disp8 .ebp 0x80)) 1).wellFormed = true := by decide

theorem witness_EncodeOfDecode : decode [0xC3, 0x01] = .ok (.ret, [0x01]) := by decide

theorem witness_ModRMOperandForms :
    (7 : BitVec 3) ≠ 4 ∧ (7 : BitVec 3) ≠ 5 ∧ (5 : BitVec 3) = 5 ∧ (5 : BitVec 3) ≠ 4 ∧ (4 : BitVec 3) = 4 := by decide

/-- The ModRM byte, a displacement byte, and the displacement after a SIB byte, each the first byte missing. -/
theorem witness_ModRMFetchOrder :
    (edge 1).fetchModRM (.reg .eax) = .error (.outOfBoundsAccess 0x100000) ∧
      (edge 2).fetchModRM (.mem (.disp8 .eax 0)) = .error (.outOfBoundsAccess 0x100000) ∧
      (edge 3).fetchModRM (.mem (.sibDisp32 0 0)) = .error (.outOfBoundsAccess 0x100000) := by decide

/-- The longest instruction, and the shortest, complete. -/
theorem witness_CompletedInstructionsAreAtMostTenBytes :
    here.status = .running ∧ lookExec (.movRmImm32 0 (.mem (.abs 0x8000)) 1) here (·.status) = some .running ∧
      lookExec .ret here (·.status) = some .running := by decide

theorem witness_StepRunsDecodedInstruction :
    (start [0xC9]).status = .running ∧ (start [0xC9]).inBounds (start [0xC9]).pc = true ∧
      decode (start [0xC9]).window = .ok (.leave, List.replicate 10 0) := by decide

/-- The three endings: past the instruction, at address 0, and in a stop. -/
theorem witness_StepRunsInstructionInMemory :
    (start [0xEB, 0]).holdsCode (encode (.jmpRel8 0)) ∧
      lookExec (.jmpRel8 0) (start [0xEB, 0]) (fun t => (t.status, t.pc == 0)) = some (.running, false) ∧
      ((start [0xC3]).setReg .esp 0x8000).holdsCode (encode .ret) ∧
      lookExec .ret ((start [0xC3]).setReg .esp 0x8000) (fun t => (t.status, t.pc == 0)) = some (.running, true) ∧
      ((start [0xC3]).setReg .esp 0xFFFFD).holdsCode (encode .ret) ∧
      lookExec .ret ((start [0xC3]).setReg .esp 0xFFFFD) (·.status) =
        some (.halted (.outOfBoundsAccess 0xFFFFD 0x7C00)) := by decide

theorem witness_OnlyHaltedCoresHaveNoStep :
    here.status = .running ∧ (here.halt .normalEnd).status = .halted .normalEnd := by decide

theorem witness_EipOutOfRangeStops :
    (edge 0).status = .running ∧ (edge 0).launch.memSize ≤ (edge 0).pc.toNat := by decide

theorem witness_UnregisteredOpcodeStops :
    (start [0xD6]).status = .running ∧ (0xD6 : Byte) ∉ registered ∧ (start [0xD6]).holdsCode [0xD6] ∧
      (0x00 : Byte) ∉ registered ∧ (0xFE : Byte) ∉ registered := by decide

/-- `83 /1` and `FF /7` in memory; `83 /1` with its displacement, and with the displacement after its SIB byte, past the
end of memory; and the last byte of memory `FF`. -/
theorem witness_UnsupportedGroupVariantStops :
    (start [0x83, 0xC8]).status = .running ∧ (start [0x83, 0xC8]).holdsCode (0x83 :: (RM.reg .eax).encode 1) ∧
      (start [0xFF, 0xF8]).holdsCode (0xFF :: (RM.reg .eax).encode 7) ∧
      (put (edge 2) 0xFFFFE [0x83, 0x0D]).holdsCode ((0x83 :: (RM.mem (.abs 0x1234)).encode 1).take 2) ∧
      ¬ (put (edge 2) 0xFFFFE [0x83, 0x0D]).modRMIn (.mem (.abs 0x1234)) ∧
      (put (edge 3) 0xFFFFD [0x83, 0x4C, 0x24]).holdsCode ((0x83 :: (RM.mem (.sibDisp8 0x24 8)).encode 1).take 2) ∧
      ¬ (put (edge 3) 0xFFFFD [0x83, 0x4C, 0x24]).modRMIn (.mem (.sibDisp8 0x24 8)) ∧
      (put (edge 1) 0xFFFFF [0xFF]).holdsCode [0xFF] ∧
      (put (edge 1) 0xFFFFF [0xFF]).inBounds (after (put (edge 1) 0xFFFFF [0xFF]) 1) = false := by decide

theorem witness_FatalStopsArePrecise :
    ∃ t, step (start [0xD6]) = .next t ∧ t.status = .halted (.unimplementedOpcode 0xD6 none 0x7C00) ∧
      Stop.unimplementedOpcode 0xD6 none 0x7C00 ≠ .normalEnd := by
  obtain ⟨t, h, e⟩ := look_some (s := start [0xD6]) (f := (·.status))
    (v := .halted (.unimplementedOpcode 0xD6 none 0x7C00)) (by decide)
  exact ⟨t, h, e, by decide⟩

theorem witness_NormalEndMeansZeroPc :
    ∃ t, step ((start [0xC3]).setReg .esp 0x8000) = .next t ∧ t.status = .halted .normalEnd :=
  look_some (s := (start [0xC3]).setReg .esp 0x8000) (f := (·.status)) (by decide)

theorem witness_MissingBytesStop : ¬ (edge 4).codeAt 1 ((Instr.jmpRel32 0).length - 1) := by decide

/-- Each storing instruction completes with a store address: to the byte after it, or to a stack slot. -/
theorem witness_StoresAreSeenByFetch :
    ([(.addRmR32 (.mem (.abs 0x7C06)) .eax, 0x7C06), (.addRmImm8 (.mem (.abs 0x7C07)) 1, 0x7C07),
      (.subRmImm8 (.mem (.abs 0x7C07)) 1, 0x7C07), (.incRm (.mem (.abs 0x7C06)), 0x7C06),
      (.movRmR32 (.mem (.abs 0x7C06)) .eax, 0x7C06), (.movRmImm32 0 (.mem (.abs 0x7C0A)) 0x90, 0x7C0A),
      (.pushR32 .eax, 0x7BFC), (.pushImm32 1, 0x7BFC), (.pushImm8 1, 0x7BFC), (.callRel32 0xFFFFFFF7, 0x7BFC)] :
      List (Instr × Word)).all
      (fun p => lookExec p.1 here (·.status) == some .running && storeAddr p.1 here == some p.2) = true := by decide

/-- The fetched byte is the stored one: the first byte after `C7`, and the first of the slot a call pushes and goes to. -/
theorem witness_StoresAreSeenByFetch_bytes :
    lookExec (.movRmImm32 0 (.mem (.abs 0x7C0A)) 0x90) here (fun t => t.pc + BitVec.ofNat 32 0) =
        some (0x7C0A + BitVec.ofNat 32 0) ∧
      lookExec (.callRel32 0xFFFFFFF7) here (fun t => t.pc + BitVec.ofNat 32 0) = some (0x7BFC + BitVec.ofNat 32 0) ∧
      lookExec (.callRel32 0xFFFFFFF7) here (fun t => t.pc + BitVec.ofNat 32 3) =
        some (0x7BFC + BitVec.ofNat 32 3) := by decide

/-- The clauses of a statement about an `r/m32` operand whose instruction has `n` more bytes: operands in a register
and in the last word of memory; ModRM bytes missing; a SIB form; and an address one past the last word. -/
abbrev OperandCases (n : Nat) : Prop :=
  (here.codeAt 1 ((RM.reg .edi).length + n) ∧ operand here (.reg .edi) = some 0) ∧
  (here.codeAt 1 ((RM.mem (.abs 0xFFFFC)).length + n) ∧ operand here (.mem (.abs 0xFFFFC)) = some 0) ∧
  (¬ (edge 1).modRMIn (.reg .eax) ∧ ¬ (edge 5).modRMIn (.mem (.abs 0))) ∧
  (here.codeAt 1 ((RM.mem (.sib 0x24)).length + n) ∧
    sibStop (.sib 0x24) here.pc = some (.unimplementedAddressingMode 0 4 0x24 0x7C00)) ∧
  (here.codeAt 1 ((RM.mem (.abs 0xFFFFD)).length + n) ∧ here.ea (.abs 0xFFFFD) = .ok 0xFFFFD ∧
    here.inBounds4 0xFFFFD = false)

theorem operandCases_zero : OperandCases 0 := by decide
theorem operandCases_one : OperandCases 1 := by decide
theorem operandCases_four : OperandCases 4 := by decide

/-- The ModRM byte is the last byte of memory, so a byte immediate is missing. -/
abbrev ImmediateMissing : Prop :=
  (edge 2).modRMIn (.reg .eax) ∧ operand (edge 2) (.reg .eax) = some 0 ∧
    (edge 2).inBounds (after (edge 2) (1 + (RM.reg .eax).length)) = false

theorem immediateMissing : ImmediateMissing := by decide

theorem witness_AddRegister : OperandCases 0 := operandCases_zero
theorem witness_AddImmediate : OperandCases 1 ∧ ImmediateMissing := ⟨operandCases_one, immediateMissing⟩
theorem witness_SubImmediate : OperandCases 1 ∧ ImmediateMissing := ⟨operandCases_one, immediateMissing⟩
theorem witness_CompareImmediate : OperandCases 1 ∧ ImmediateMissing := ⟨operandCases_one, immediateMissing⟩
theorem witness_Increment : OperandCases 0 := operandCases_zero
theorem witness_CompareRegister : OperandCases 0 := operandCases_zero
theorem witness_MoveToOperand : OperandCases 0 := operandCases_zero
theorem witness_MoveFromOperand : OperandCases 0 := operandCases_zero

theorem witness_MoveImmediateToOperand :
    OperandCases 4 ∧ (edge 5).modRMIn (.reg .eax) ∧ ¬ (edge 5).codeAt (1 + (RM.reg .eax).length) 4 :=
  ⟨operandCases_four, by decide, by decide⟩

/-- The code in memory, and its last byte missing. -/
theorem witness_MoveImmediateToRegister :
    (edge 5).inBounds (edge 5).pc = true ∧ (edge 5).codeAt 1 4 ∧ (edge 4).inBounds (edge 4).pc = true ∧
      ¬ (edge 4).codeAt 1 4 := by decide

/-- The stack slot in memory, at the end of memory, and one byte past it. -/
theorem witness_PushRegister :
    here.inBounds here.pc = true ∧ here.inBounds4 (here.x.esp - 4) = true ∧
      (here.setReg .esp 0x100000).inBounds4 ((here.setReg .esp 0x100000).x.esp - 4) = true ∧
      (here.setReg .esp 0x100001).inBounds4 ((here.setReg .esp 0x100001).x.esp - 4) = false := by decide

theorem witness_PopRegister :
    here.inBounds here.pc = true ∧ (here.setReg .esp 0xFFFFC).inBounds4 (here.setReg .esp 0xFFFFC).x.esp = true ∧
      (here.setReg .esp 0xFFFFD).inBounds4 (here.setReg .esp 0xFFFFD).x.esp = false := by decide

/-- The clauses of a statement that fetches a word and pushes. -/
abbrev WordPushCases : Prop :=
  here.codeAt 1 4 ∧ here.inBounds4 (here.x.esp - 4) = true ∧ ¬ (edge 4).codeAt 1 4 ∧
    (here.setReg .esp 3).codeAt 1 4 ∧ (here.setReg .esp 3).inBounds4 ((here.setReg .esp 3).x.esp - 4) = false

theorem wordPushCases : WordPushCases := by decide

theorem witness_PushImmediateWord : WordPushCases := wordPushCases
theorem witness_CallRelative : WordPushCases := wordPushCases

theorem witness_PushImmediateByte :
    here.codeAt 1 1 ∧ here.inBounds4 (here.x.esp - 4) = true ∧ ¬ (edge 1).codeAt 1 1 ∧
      (here.setReg .esp 3).codeAt 1 1 ∧ (here.setReg .esp 3).inBounds4 ((here.setReg .esp 3).x.esp - 4) = false := by
  decide

theorem witness_ReturnPopsPc :
    here.inBounds4 here.x.esp = true ∧ (here.setReg .esp 0xFFFFD).inBounds4 (here.setReg .esp 0xFFFFD).x.esp = false := by
  decide

theorem witness_LeaveRestoresFrame :
    here.inBounds4 here.x.ebp = true ∧ (here.setReg .ebp 0xFFFFD).inBounds4 (here.setReg .ebp 0xFFFFD).x.ebp = false := by
  decide

theorem witness_ReturnAfterCall : here.codeAt 1 4 ∧ here.inBounds4 (here.x.esp - 4) = true := by decide

theorem witness_PopAfterPushMoves :
    here.inBounds here.pc = true ∧ here.inBounds (here.pc + 1) = true ∧ here.inBounds4 (here.x.esp - 4) = true := by
  decide

/-- The displacement byte is the last byte of memory, and one past it. -/
theorem witness_JumpShort :
    (edge 2).inBounds (after (edge 2) 1) = true ∧ (edge 1).inBounds (after (edge 1) 1) = false := by decide

theorem witness_ConditionalJumps :
    (edge 2).inBounds (after (edge 2) 1) = true ∧ (edge 1).inBounds (after (edge 1) 1) = false := by decide

theorem witness_JumpNear : (edge 5).codeAt 1 4 ∧ ¬ (edge 4).codeAt 1 4 := by decide

/-- V-C2, the most negative displacement byte, from `7C00` to `7B82`. -/
theorem witness_AssembledDisplacementReachesTarget :
    here.codeAt 1 4 ∧ here.inBounds4 (here.x.esp - 4) = true ∧ here.inBounds (after here 1) = true ∧
      (0x80 : Byte).signExtend 32 = relTo here.pc 0x7B82 2 := by decide

theorem witness_PcAdvancesByLength :
    here.status = .running ∧ lookExec .leave here (·.status) = some .running ∧ transfers .leave = false := by decide

/-- `ADD ECX, EAX` completes, and writes `ECX` alone. -/
theorem witness_RegisterFrame :
    (lookExec (.addRmR32 (.reg .ecx) .eax) here (·.status)).isSome = true ∧
      Reg.eax ∉ writtenRegs (.addRmR32 (.reg .ecx) .eax) := by decide

theorem witness_FlagFrame :
    (lookExec (.addRmR32 (.reg .ecx) .eax) here (·.status)).isSome = true ∧
      writesFlags (.addRmR32 (.reg .ecx) .eax) = false := by decide

/-- A store to `8000`: the bytes below and above its word; and a form that stores nothing. -/
theorem witness_MemoryFrame :
    (lookExec (.movRmR32 (.mem (.abs 0x8000)) .eax) here (·.status)).isSome = true ∧
      storeAddr (.movRmR32 (.mem (.abs 0x8000)) .eax) here = some 0x8000 ∧
      (∀ j < 4, 0x7FFF ≠ ((0x8000 : Word) + BitVec.ofNat 32 j).toNat) ∧
      (∀ j < 4, 0x8004 ≠ ((0x8000 : Word) + BitVec.ofNat 32 j).toNat) ∧ storeAddr .leave here = none := by decide

theorem witness_LaunchParametersAreFixed : ∃ t, step (start [0x50]) = .next t ∧ t.status = .running :=
  look_some (s := start [0x50]) (f := (·.status)) (by decide)

theorem witness_StepKeepsInvariant :
    (start [0x50]).inv = true ∧ ∃ t, step (start [0x50]) = .next t ∧ t.status = .running :=
  ⟨by decide, look_some (s := start [0x50]) (f := (·.status)) (by decide)⟩

theorem witness_ReachedStatesMeetInvariant :
    (State.construct launch [0x50]).isSome = true ∧ reaches 0 (start [0x50]) (start [0x50]) :=
  ⟨by decide, rfl⟩

theorem witness_RunsEndOnce : endsIn (here.halt .normalEnd) .normalEnd (here.halt .normalEnd) := ⟨⟨0, rfl⟩, rfl⟩

end Sys2Proof.Tests
end

section
namespace Sys2Proof.Machine

/-! ### The byte-register interface (R19, R20, R21) -/

/-- The bits of a word whose bits 7..0 are replaced by a byte (R19). -/
theorem getLsbD_replaceLowByte (w : Word) (v : Byte) {n : Nat} (hn : n < 32) :
    (w.extractLsb' 8 24 ++ v).getLsbD n = if n < 8 then v.getLsbD n else w.getLsbD n := by
  rw [BitVec.getLsbD_append]
  by_cases hlow : n < 8
  · simp [hlow]
  · have hplace : 8 + (n - 8) = n := by omega
    have hrest : n - 8 < 24 := by omega
    simp [hlow, hplace, hrest]

/-- The bits of a word whose bits 15..8 are replaced by a byte (R20). -/
theorem getLsbD_replaceSecondByte (w : Word) (v : Byte) {n : Nat} (hn : n < 32) :
    (w.extractLsb' 16 16 ++ v ++ w.extractLsb' 0 8).getLsbD n =
      if 8 ≤ n ∧ n < 16 then v.getLsbD (n - 8) else w.getLsbD n := by
  rw [BitVec.getLsbD_append, BitVec.getLsbD_append]
  by_cases hlow : n < 8
  · have hnot : ¬ 8 ≤ n := by omega
    simp [hlow, hnot]
  · by_cases hsecond : n < 16
    · have hbyte : n - 8 < 8 := by omega
      have hge : 8 ≤ n := by omega
      simp [hlow, hsecond, hbyte, hge]
    · have hbyte : ¬ n - 8 < 8 := by omega
      have hplace : 16 + (n - 8 - 8) = n := by omega
      have hrest : n - 8 - 8 < 16 := by omega
      simp [hlow, hsecond, hbyte, hplace, hrest]

/-- One bit of one register after a register write. -/
theorem Regs.getLsbD_get_set (x : Regs) (r q : Reg) (w : Word) (n : Nat) :
    ((x.set r w).get q).getLsbD n = if q = r then w.getLsbD n else (x.get q).getLsbD n := by
  rw [Regs.get_set, apply_ite (BitVec.getLsbD · n)]

theorem Regs.readRegister8_of_lt_four (x : Regs) {i : Nat} (h : i < 4) :
    x.readRegister8 i = some ((x.get (.ofBits (BitVec.ofNat 3 i))).extractLsb' 0 8) :=
  if_pos h

theorem Regs.readRegister8_of_four_le (x : Regs) {i : Nat} (h : 4 ≤ i) (h' : i < 8) :
    x.readRegister8 i = some ((x.get (.ofBits (BitVec.ofNat 3 (i - 4)))).extractLsb' 8 8) := by
  rw [Regs.readRegister8, if_neg (by omega), if_pos h']

theorem Regs.readRegister8_of_eight_le (x : Regs) {i : Nat} (h : 8 ≤ i) : x.readRegister8 i = none := by
  rw [Regs.readRegister8, if_neg (by omega), if_neg (by omega)]

theorem Regs.writeRegister8_of_eight_le (x : Regs) {i : Nat} (v : Byte) (h : 8 ≤ i) :
    x.writeRegister8 i v = none := by
  rw [Regs.writeRegister8, if_neg (by omega), if_neg (by omega)]

/-- A byte write at an index below 4 succeeds and changes bits 7..0 of its register alone (R19). -/
theorem Regs.writeRegister8_of_lt_four (x : Regs) {i : Nat} (v : Byte) (h : i < 4) :
    ∃ y, x.writeRegister8 i v = some y ∧ ∀ (q : Reg) (n : Nat), n < 32 → (y.get q).getLsbD n =
      if q = .ofBits (BitVec.ofNat 3 i) ∧ n < 8 then v.getLsbD n else (x.get q).getLsbD n := by
  refine ⟨_, if_pos h, fun q n hn => ?_⟩
  rw [ite_and, Regs.getLsbD_get_set, getLsbD_replaceLowByte _ _ hn]
  split
  case isTrue hq => rw [hq]
  case isFalse => rfl

/-- A byte write at an index from 4 to 7 succeeds and changes bits 15..8 of its register alone (R20). -/
theorem Regs.writeRegister8_of_four_le (x : Regs) {i : Nat} (v : Byte) (h : 4 ≤ i) (h' : i < 8) :
    ∃ y, x.writeRegister8 i v = some y ∧ ∀ (q : Reg) (n : Nat), n < 32 → (y.get q).getLsbD n =
      if q = .ofBits (BitVec.ofNat 3 (i - 4)) ∧ 8 ≤ n ∧ n < 16 then v.getLsbD (n - 8)
      else (x.get q).getLsbD n := by
  refine ⟨_, (if_neg (by omega)).trans (if_pos h'), fun q n hn => ?_⟩
  rw [ite_and, Regs.getLsbD_get_set, getLsbD_replaceSecondByte _ _ hn]
  split
  case isTrue hq => rw [hq]
  case isFalse => rfl

/-- Settles O4: the three ranges of the index, each by what a read and a write do there. -/
theorem byteRegisterInterface : Obligations.ByteRegisterInterface := by
  intro x i v
  refine ⟨fun hlow => ?_, fun ⟨hge, hlt⟩ => ?_, fun hout => ?_⟩
  · obtain ⟨y, hwrite, hbits⟩ := x.writeRegister8_of_lt_four v hlow
    exact ⟨y, x.readRegister8_of_lt_four hlow, hwrite, hbits⟩
  · obtain ⟨y, hwrite, hbits⟩ := x.writeRegister8_of_four_le v hge hlt
    exact ⟨y, x.readRegister8_of_four_le hge hlt, hwrite, hbits⟩
  · exact ⟨x.readRegister8_of_eight_le hout, x.writeRegister8_of_eight_le v hout⟩

end Sys2Proof.Machine
end

section
namespace Sys2Proof.Machine

/-! ### Memory by bytes: the four addresses of a 32-bit access (R36, R37, R38) -/

/-- A property of the four offsets of a 32-bit access, offset by offset. -/
theorem forall_offset_iff {p : Nat → Prop} : (∀ j < 4, p j) ↔ p 0 ∧ p 1 ∧ p 2 ∧ p 3 := by
  simp only [Nat.forall_lt_succ_left, Nat.not_lt_zero, false_implies, implies_true, and_true]

theorem inBounds_iff (s : State) (a : Word) : s.inBounds a = true ↔ a.toNat < s.launch.memSize :=
  decide_eq_true_iff

theorem inBounds_eq_false_iff (s : State) (a : Word) : s.inBounds a = false ↔ s.launch.memSize ≤ a.toNat := by
  rw [← Bool.not_eq_true, inBounds_iff, Nat.not_lt]

/-- The addresses of a 32-bit access by their offset, as the pseudocode of R37 lists them. -/
theorem inBounds4_iff_forall (s : State) (a : Word) :
    s.inBounds4 a = true ↔ ∀ j < 4, s.inBounds (a + BitVec.ofNat 32 j) = true := by
  rw [inBounds4_iff, forall_offset_iff, BitVec.add_zero]
  rfl

theorem inBounds4_eq_false {s : State} {a : Word} {j : Nat} (hj : j < 4)
    (h : s.launch.memSize ≤ (a + BitVec.ofNat 32 j).toNat) : s.inBounds4 a = false := by
  rw [← Bool.not_eq_true, inBounds4_iff_forall]
  intro hall
  exact absurd ((inBounds_iff _ _).mp (hall j hj)) (Nat.not_lt.mpr h)

theorem memWrite8_ok (s : State) (a : Word) (v : Byte) (t : State) :
    s.memWrite8 a v = .ok t ↔ s.inBounds a = true ∧ t = { s with mem := s.mem.write a.toNat v } := by
  cases h : s.inBounds a <;> simp [State.memWrite8, h, eq_comm]

theorem memWrite8_error (s : State) (a : Word) (v : Byte) (e : Raise) :
    s.memWrite8 a v = .error e ↔ s.inBounds a = false ∧ e = .outOfBoundsAccess a := by
  cases h : s.inBounds a <;> simp [State.memWrite8, h, eq_comm]

/-! ### The bytes of a stored word -/

/-- Byte `j` of the word at `a` is the byte at `a + j` (R37). -/
theorem Memory.byteOf_word (m : Memory) (a : Word) :
    ∀ j < 4, byteOf (m.word a) j = m.read (a + BitVec.ofNat 32 j).toNat := by
  rw [forall_offset_iff, BitVec.add_zero]
  exact byteOf_wordOf _ _ _ _

/-- A stored word leaves its byte `j` at `a + j` (R37): the four addresses are distinct modulo 2^32. -/
theorem Memory.read_storeWord_offset (m : Memory) (a v : Word) :
    ∀ j < 4, (m.storeWord a v).read (a + BitVec.ofNat 32 j).toNat = byteOf v j := by
  rw [forall_offset_iff]
  simp [Memory.read_storeWord, BitVec.toNat_inj, -BitVec.toNat_add]

theorem Memory.read_storeWord_of_ne (m : Memory) (a v : Word) {n : Nat}
    (h : ∀ j < 4, n ≠ (a + BitVec.ofNat 32 j).toNat) : (m.storeWord a v).read n = m.read n := by
  obtain ⟨h0, h1, h2, h3⟩ := forall_offset_iff.mp h
  rw [BitVec.add_zero] at h0
  rw [Memory.read_storeWord]
  exact ((if_neg h3).trans (if_neg h2)).trans ((if_neg h1).trans (if_neg h0))

/-- A word read where it was stored is the stored word. -/
@[simp] theorem Memory.word_storeWord (m : Memory) (a v : Word) : (m.storeWord a v).word a = v := by
  obtain ⟨h0, h1, h2, h3⟩ := forall_offset_iff.mp (m.read_storeWord_offset a v)
  rw [BitVec.add_zero] at h0
  calc (m.storeWord a v).word a
      = wordOf (byteOf v 0) (byteOf v 1) (byteOf v 2) (byteOf v 3) :=
        congr (congr (congr (congrArg wordOf h0) h1) h2) h3
    _ = v := wordOf_byteOf v

/-- Settles O8: each clause by what the access does to the bytes of memory. -/
theorem memoryIsLittleEndian : Obligations.MemoryIsLittleEndian := by
  refine ⟨fun s a v hread j hj => ?_, fun s t a v hwrite => ?_, fun s t a v hwrite => ?_⟩
  · obtain ⟨hin, rfl⟩ := (memRead32_ok s a v).mp hread
    exact (memRead8_ok _ _ _).mpr ⟨(inBounds4_iff_forall s a).mp hin j hj, s.mem.byteOf_word a j hj⟩
  · obtain ⟨hin, rfl⟩ := (memWrite32_ok s a v t).mp hwrite
    exact ⟨(memRead32_ok _ _ _).mpr ⟨hin, (s.mem.word_storeWord a v).symm⟩, s.mem.read_storeWord_offset a v,
      fun _ => s.mem.read_storeWord_of_ne a v, rfl⟩
  · obtain ⟨hin, rfl⟩ := (memWrite8_ok s a v t).mp hwrite
    have hsame : v = (s.mem.write a.toNat v).read a.toNat := by rw [Memory.read_write, if_pos rfl]
    exact ⟨(memRead8_ok _ _ _).mpr ⟨hin, hsame⟩, fun n hn => by rw [Memory.read_write, if_neg hn], rfl⟩

/-- Settles O9: the checks of a byte access and of the four addresses of a 32-bit access. -/
theorem accessesAreBoundsChecked : Obligations.AccessesAreBoundsChecked := by
  intro s a v b
  refine ⟨fun hlt => ?_, fun hge => ?_, fun hall => ?_, fun j hj hge => ?_⟩
  · have hin := (inBounds_iff s a).mpr hlt
    exact ⟨(memRead8_ok _ _ _).mpr ⟨hin, rfl⟩, _, (memWrite8_ok _ _ _ _).mpr ⟨hin, rfl⟩⟩
  · have hout := (inBounds_eq_false_iff s a).mpr hge
    exact ⟨(memRead8_error _ _ _).mpr ⟨hout, rfl⟩, (memWrite8_error _ _ _ _).mpr ⟨hout, rfl⟩⟩
  · have hin := (inBounds4_iff_forall s a).mpr fun j hj => (inBounds_iff _ _).mpr (hall j hj)
    exact ⟨⟨_, (memRead32_ok _ _ _).mpr ⟨hin, rfl⟩⟩, _, (memWrite32_ok _ _ _ _).mpr ⟨hin, rfl⟩⟩
  · have hout := inBounds4_eq_false hj hge
    exact ⟨(memRead32_error _ _ _).mpr ⟨hout, rfl⟩, (memWrite32_error _ _ _ _).mpr ⟨hout, rfl⟩⟩

/-- The round trip of R45: the pop reads the slot the push stored, and `ESP - 4 + 4 = ESP`. -/
theorem pop32_of_push32 {s t : State} {v : Word} (h : s.push32 v = .ok t) :
    t.pop32 = .ok (v, { t with x := s.x }) := by
  obtain ⟨hin, rfl⟩ := (push32_ok s v t).mp h
  refine (pop32_ok _ _).mpr ⟨hin, ?_⟩
  simp [State.reg, State.setReg]

/-- Settles O10: what a push and a pop do and where each raises, with the round trip. -/
theorem popAfterPushRestores : Obligations.PopAfterPushRestores := by
  intro s v
  refine ⟨fun hin => ?_, fun hout => ?_, fun hin => ?_, fun hout => ?_⟩
  · have hpush := (push32_ok s v _).mpr ⟨hin, rfl⟩
    exact ⟨_, hpush, s.mem.word_storeWord _ v, rfl, pop32_of_push32 hpush⟩
  · exact (push32_error s v _).mpr ⟨hout, rfl⟩
  · exact (pop32_ok s _).mpr ⟨hin, rfl⟩
  · exact (pop32_error s _).mpr ⟨hout, rfl⟩

end Sys2Proof.Machine
end

section
namespace Sys2Proof
open Sys2Proof.Machine Sys2Proof.Claims

/-! ### ModRM operand forms (R52, R54, R56) -/

/-- The base register of a well-formed `ind` is not one of the two that `mod = 0` gives another meaning (R56). -/
theorem MemForm.wellFormed_ind_iff (b : Reg) : (MemForm.ind b).wellFormed = true ↔ b.bits ≠ 4#3 ∧ b.bits ≠ 5#3 := by
  cases b <;> decide

theorem MemForm.wellFormed_disp8_iff (b : Reg) (d : Byte) : (MemForm.disp8 b d).wellFormed = true ↔ b.bits ≠ 4#3 := by
  cases b <;> simp [MemForm.wellFormed, Reg.bits]

theorem MemForm.wellFormed_disp32_iff (b : Reg) (d : Word) :
    (MemForm.disp32 b d).wellFormed = true ↔ b.bits ≠ 4#3 := by
  cases b <;> simp [MemForm.wellFormed, Reg.bits]

/-- Reading a memory form from its own `mod`, `rm`, SIB and displacement bytes gives it back. -/
theorem takeMemForm_tail {m : MemForm} (hm : m.wellFormed = true) (rest : List Byte) :
    takeMemForm m.modBits m.rmBits (m.tail ++ rest) = .ok (m, rest) := by
  cases m with
  | ind b =>
    obtain ⟨h4, h5⟩ := (MemForm.wellFormed_ind_iff b).mp hm
    simp [takeMemForm, MemForm.modBits, MemForm.rmBits, MemForm.tail, h4, h5]
  | abs d => simp [takeMemForm, MemForm.modBits, MemForm.rmBits, MemForm.tail, takeWord_wordBytes]
  | disp8 b d =>
    have h4 := (MemForm.wellFormed_disp8_iff b d).mp hm
    simp [takeMemForm, MemForm.modBits, MemForm.rmBits, MemForm.tail, h4]
  | disp32 b d =>
    have h4 := (MemForm.wellFormed_disp32_iff b d).mp hm
    simp [takeMemForm, MemForm.modBits, MemForm.rmBits, MemForm.tail, h4, takeWord_wordBytes]
  | sib s => simp [takeMemForm, MemForm.modBits, MemForm.rmBits, MemForm.tail]
  | sibDisp8 s d => simp [takeMemForm, MemForm.modBits, MemForm.rmBits, MemForm.tail]
  | sibDisp32 s d => simp [takeMemForm, MemForm.modBits, MemForm.rmBits, MemForm.tail, takeWord_wordBytes]

theorem takeModRM_register (reg rm : BitVec 3) (bs : List Byte) :
    takeModRM (modRMByte 3 reg rm :: bs) = .ok ((reg, .reg (.ofBits rm)), bs) := by
  simp [takeModRM, modField_modRMByte, regField_modRMByte, rmField_modRMByte]

theorem MemForm.modBits_ne_three (m : MemForm) : m.modBits ≠ 3#2 := by
  cases m <;> simp [MemForm.modBits]

theorem takeModRM_memory (m : MemForm) (reg : BitVec 3) (bs : List Byte) :
    takeModRM (modRMByte m.modBits reg m.rmBits :: bs) =
      (takeMemForm m.modBits m.rmBits bs >>= fun p => .ok ((reg, .mem p.1), p.2)) := by
  simp [takeModRM, modField_modRMByte, regField_modRMByte, rmField_modRMByte, m.modBits_ne_three]

/-- The ModRM decoder inverts the encoder on well-formed operands. -/
theorem takeModRM_encode {rm : RM} (hrm : rm.wellFormed = true) (reg : BitVec 3) (rest : List Byte) :
    takeModRM (rm.encode reg ++ rest) = .ok ((reg, rm), rest) := by
  cases rm with
  | reg r => exact (takeModRM_register reg r.bits rest).trans (by rw [Reg.ofBits_bits])
  | mem m =>
    have hm : m.wellFormed = true := hrm
    simp only [RM.encode, List.cons_append, takeModRM_memory, takeMemForm_tail hm, ok_bind]

/-- Settles O14: each row of the table is a well-formed operand read back from its encoding. -/
theorem modRMOperandForms : Obligations.ModRMOperandForms := by
  intro reg rm sib d8 d32 rest s
  obtain ⟨r, rfl⟩ : ∃ r : Reg, r.bits = rm := ⟨.ofBits rm, Reg.bits_ofBits rm⟩
  simp only [Reg.ofBits_bits]
  have back (rm : RM) (h : rm.wellFormed = true) := takeModRM_encode h reg rest
  refine ⟨back (.reg r) rfl, fun h4 h5 => ?_, fun h5 => ?_, fun h4 => ?_, fun h4 => ?_, fun h4 => ?_,
    rfl, rfl, rfl, rfl, rfl, rfl, rfl⟩
  · exact back (.mem (.ind r)) ((MemForm.wellFormed_ind_iff r).mpr ⟨h4, h5⟩)
  · rw [h5]
    exact back (.mem (.abs d32)) rfl
  · exact back (.mem (.disp8 r d8)) ((MemForm.wellFormed_disp8_iff r d8).mpr h4)
  · exact back (.mem (.disp32 r d32)) ((MemForm.wellFormed_disp32_iff r d32).mpr h4)
  · rw [h4]
    exact ⟨back (.mem (.sib sib)) rfl, back (.mem (.sibDisp8 sib d8)) rfl, back (.mem (.sibDisp32 sib d32)) rfl⟩

/-! ### Opcode dispatch (R64 to R68) -/

theorem dispatch_eq_none_iff (op : Byte) : dispatch op = none ↔ op ∉ registered := by
  revert op; decide

theorem decode_of_dispatch_none {op : Byte} (h : dispatch op = none) (bs : List Byte) :
    decode (op :: bs) = .error (.emptyEntry op) := by
  simp [decode, h]

theorem decode_of_dispatch_some {op : Byte} {handler : Handler} (h : dispatch op = some handler) (bs : List Byte) :
    decode (op :: bs) = decodeRest handler op bs := by
  simp [decode, h]

theorem decode_group83 (bs : List Byte) : decode (0x83 :: bs) = decodeGroup83 0x83 bs :=
  decode_of_dispatch_some (handler := .group83) (by decide) bs

theorem decode_groupFF (bs : List Byte) : decode (0xFF :: bs) = decodeGroupFF 0xFF bs :=
  decode_of_dispatch_some (handler := .groupFF) (by decide) bs

theorem group83_eq_none {sub : BitVec 3} (h : sub ≠ 0 ∧ sub ≠ 5 ∧ sub ≠ 7) : group83 sub = none := by
  revert sub; decide

/-- Each instruction of group `83` keeps its operand. -/
theorem rm?_of_group83 {sub : BitVec 3} {mk : RM → Byte → Instr} (h : group83 sub = some mk) (rm : RM) (b : Byte) :
    (mk rm b).rm? = some rm := by
  unfold group83 at h
  split at h <;> cases h <;> rfl

/-- An unsupported sub-opcode is rejected whatever the bytes after the ModRM bytes are (R68). -/
theorem decode_unsupported {op : Byte} {sub : BitVec 3} {rm : RM} {bs rest : List Byte}
    (hsub : op = 0x83 ∧ sub ≠ 0 ∧ sub ≠ 5 ∧ sub ≠ 7 ∨ op = 0xFF ∧ sub ≠ 0)
    (htake : takeModRM bs = .ok ((sub, rm), rest)) : decode (op :: bs) = .error (.groupVariant op sub rm) := by
  rcases hsub with ⟨rfl, h⟩ | ⟨rfl, h⟩
  · simp only [decode_group83, decodeGroup83, htake, ok_bind, group83_eq_none h]
  · simp only [decode_groupFF, decodeGroupFF, htake, ok_bind, if_neg h]

/-- Whatever the sub-opcode, the decoder's answer on a group opcode has the operand its ModRM bytes give. -/
theorem decode_group {op : Byte} {sub : BitVec 3} {rm : RM} {bs rest : List Byte} (hop : op = 0x83 ∨ op = 0xFF)
    (htake : takeModRM bs = .ok ((sub, rm), rest)) (hrest : 1 ≤ rest.length) :
    decode (op :: bs) = .error (.groupVariant op sub rm) ∨
      ∃ i rest', decode (op :: bs) = .ok (i, rest') ∧ i.rm? = some rm := by
  rcases hop with rfl | rfl
  · obtain ⟨b, hb, -⟩ := takeByte_of_length (n := 0) hrest
    rw [decode_group83]
    cases h : group83 sub with
    | none => exact .inl (by simp [decodeGroup83, htake, h])
    | some mk => exact .inr ⟨mk rm b.1, b.2, by simp [decodeGroup83, htake, h, hb], rm?_of_group83 h rm b.1⟩
  · rw [decode_groupFF]
    by_cases h : sub = 0
    · exact .inr ⟨.incRm rm, rest, by simp only [decodeGroupFF, htake, ok_bind, if_pos h], rfl⟩
    · exact .inl (by simp only [decodeGroupFF, htake, ok_bind, if_neg h])

end Sys2Proof

namespace Sys2Proof.Machine
open Sys2Proof.Claims

/-! ### The fetch of the ModRM bytes (R54, R121) -/

/-- Every instruction with an `r/m32` operand fetches its ModRM bytes first. -/
theorem exec_of_rm? {i : Instr} {rm : RM} (h : i.rm? = some rm) (s : State) :
    ∃ k, exec i s = attempt s (s.fetchModRM rm >>= k) := by
  cases i <;> cases h <;> exact ⟨_, rfl⟩

theorem exec_of_fetchModRM_error {i : Instr} {rm : RM} {s : State} {e : Raise} (h : i.rm? = some rm)
    (hfetch : s.fetchModRM rm = .error e) : exec i s = .next (s.takeStop e) := by
  obtain ⟨k, hexec⟩ := exec_of_rm? h s
  rw [hexec, hfetch, error_bind, attempt_error]

theorem fetchModRM_of_modRM_missing {s : State} (h : s.inBounds (after s 1) = false) (rm : RM) :
    s.fetchModRM rm = .error (.outOfBoundsAccess (after s 1)) := by
  have hfetch := (fetchU8_error s 1 (.outOfBoundsAccess (after s 1))).mpr ⟨h, rfl⟩
  simp only [State.fetchModRM, hfetch, error_bind]

theorem bind_error_elim {ε α β : Type} {x : Except ε α} {f : α → Except ε β} {e : ε} {p : Prop}
    (h : (x >>= f) = .error e) (hx : x = .error e → p) (hf : ∀ a, f a = .error e → p) : p :=
  ((bind_error_iff x f e).mp h).elim hx fun ⟨a, _, ha⟩ => hf a ha

/-- The only raise of the ModRM fetches is that of an access out of bounds. -/
theorem fetchModRM_error {s : State} {rm : RM} {e : Raise} (h : s.fetchModRM rm = .error e) :
    ∃ a, e = .outOfBoundsAccess a := by
  have byte (k : Nat) (h : s.fetchU8 k = .error e) : ∃ a, e = .outOfBoundsAccess a :=
    ⟨_, ((fetchU8_error s k e).mp h).2⟩
  have word (k : Nat) (h : s.fetch32 k = .error e) : ∃ a, e = .outOfBoundsAccess a :=
    ⟨_, ((fetch32_error s k e).mp h).2⟩
  refine bind_error_elim h (byte 1) fun _ h => ?_
  match rm, h with
  | .mem (.abs _), h | .mem (.disp32 _ _), h => exact bind_error_elim h (word 2) fun _ h => nomatch h
  | .mem (.disp8 _ _), h | .mem (.sib _), h => exact bind_error_elim h (byte 2) fun _ h => nomatch h
  | .mem (.sibDisp8 _ _), h =>
    exact bind_error_elim h (byte 2) fun _ h => bind_error_elim h (byte 3) fun _ h => nomatch h
  | .mem (.sibDisp32 _ _), h =>
    exact bind_error_elim h (byte 2) fun _ h => bind_error_elim h (word 3) fun _ h => nomatch h

/-- Bytes missing from memory show in the fields of the decoded form and not in what it fetches: any five bytes after
a ModRM byte decode to a form with the same fetches. -/
theorem takeMemForm_sameFetch {m : MemForm} (hm : m.wellFormed = true) {bs : List Byte} (hlen : 5 ≤ bs.length)
    (s : State) : ∃ m' rest, takeMemForm m.modBits m.rmBits bs = .ok (m', rest) ∧
      s.fetchModRM (.mem m') = s.fetchModRM (.mem m) := by
  obtain ⟨⟨b, bs1⟩, hb, hlen1⟩ := takeByte_of_length (n := 4) hlen
  obtain ⟨⟨c, bs2⟩, hc, -⟩ := takeByte_of_length (n := 3) hlen1
  obtain ⟨⟨v, bs3⟩, hv, -⟩ := takeWord_of_length (n := 1) hlen
  obtain ⟨⟨w, bs4⟩, hw, -⟩ := takeWord_of_length (n := 0) hlen1
  have hbyte : bs = b :: bs1 := takeByte_ok hb
  have hbytes : bs = b :: c :: bs2 := hbyte.trans (congrArg _ (takeByte_ok hc))
  have hword : bs = wordBytes v ++ bs3 := takeWord_ok hv
  have hbyteWord : bs = b :: wordBytes w ++ bs4 := hbyte.trans (congrArg _ (takeWord_ok hw))
  cases m with
  | ind r => exact ⟨.ind r, bs, takeMemForm_tail hm bs, rfl⟩
  | abs _ => exact ⟨.abs v, bs3, hword ▸ takeMemForm_tail (m := .abs v) hm bs3, rfl⟩
  | disp8 r _ => exact ⟨.disp8 r b, bs1, hbyte ▸ takeMemForm_tail (m := .disp8 r b) hm bs1, rfl⟩
  | disp32 r _ => exact ⟨.disp32 r v, bs3, hword ▸ takeMemForm_tail (m := .disp32 r v) hm bs3, rfl⟩
  | sib _ => exact ⟨.sib b, bs1, hbyte ▸ takeMemForm_tail (m := .sib b) hm bs1, rfl⟩
  | sibDisp8 _ _ => exact ⟨.sibDisp8 b c, bs2, hbytes ▸ takeMemForm_tail (m := .sibDisp8 b c) hm bs2, rfl⟩
  | sibDisp32 _ _ => exact ⟨.sibDisp32 b w, bs4, hbyteWord ▸ takeMemForm_tail (m := .sibDisp32 b w) hm bs4, rfl⟩

/-- The first byte of an operand's encoding, with any five bytes after it, decodes to a form with the same fetches. -/
theorem takeModRM_sameFetch {rm : RM} (hrm : rm.wellFormed = true) (sub : BitVec 3) {bs : List Byte}
    (hlen : 5 ≤ bs.length) (s : State) :
    ∃ rm' rest, takeModRM ((rm.encode sub).take 1 ++ bs) = .ok ((sub, rm'), rest) ∧
      s.fetchModRM rm' = s.fetchModRM rm := by
  cases rm with
  | reg r => exact ⟨.reg r, bs, takeModRM_encode (rm := .reg r) rfl sub bs, rfl⟩
  | mem m =>
    obtain ⟨m', rest, htake, hfetch⟩ := takeMemForm_sameFetch (m := m) hrm hlen s
    refine ⟨.mem m', rest, ?_, hfetch⟩
    calc takeModRM (modRMByte m.modBits sub m.rmBits :: bs)
        = (takeMemForm m.modBits m.rmBits bs >>= fun p => .ok ((sub, .mem p.1), p.2)) := takeModRM_memory m sub bs
      _ = .ok ((sub, .mem m'), rest) := by rw [htake, ok_bind]

/-! ### The bytes the decoder is shown (R50) -/

/-- The decoder is shown the bytes memory holds at `pc`. -/
theorem holdsCode_prefix_window {s : State} {bs : List Byte} (h : s.holdsCode bs) (hlen : bs.length ≤ maxLength) :
    bs <+: s.window := by
  rw [List.prefix_iff_getElem]
  refine ⟨by rwa [window_length], fun k hk => ?_⟩
  obtain ⟨hin, hread⟩ := h k hk
  simp [State.window, State.peek, hin, hread, -BitVec.toNat_add]

theorem inBounds_pc_of_holdsCode {s : State} {op : Byte} {bs : List Byte} (h : s.holdsCode (op :: bs)) :
    s.inBounds s.pc = true := by
  simpa using (h 0 (by simp)).1

theorem window_of_holdsCode_cons {s : State} {op : Byte} {bs : List Byte} (h : s.holdsCode (op :: bs))
    (hlen : bs.length ≤ 10) : ∃ rest, s.window = op :: (bs ++ rest) ∧ bs.length + rest.length = 10 := by
  obtain ⟨rest, hrest⟩ := holdsCode_prefix_window h (Nat.succ_le_succ hlen)
  have hwindow : (op :: bs ++ rest).length = 10 + 1 := hrest ▸ window_length s
  exact ⟨rest, hrest.symm, by simpa using hwindow⟩

/-- The ModRM bytes exist where memory holds them. -/
theorem modRMIn_of_holdsCode {s : State} {op : Byte} {rm : RM} {sub : BitVec 3}
    (h : s.holdsCode (op :: rm.encode sub)) : s.modRMIn rm := by
  intro j hj
  have hlen := (Laws.EncodedLength.rm_encode_length sub rm).1
  exact (h (1 + j) (by simp; omega)).1

/-! ### The cases of a step (R70, R71) -/

theorem step_of_pc_outOfBounds {s : State} (hrun : s.status = .running) (hout : s.inBounds s.pc = false) :
    step s = .next (s.halt (.eipOutOfRange s.pc)) := by
  simp [step, hrun, hout]

theorem step_of_decode_error {s : State} {e : DecodeError} (hrun : s.status = .running)
    (hin : s.inBounds s.pc = true) (hdec : decode s.window = .error e) : step s = s.reject e := by
  simp [step, hrun, hin, hdec]

theorem step_of_decode_ok {s : State} {i : Instr} {rest : List Byte} (hrun : s.status = .running)
    (hin : s.inBounds s.pc = true) (hdec : decode s.window = .ok (i, rest)) : step s = afterExec (exec i s) := by
  simp [step, hrun, hin, hdec]

theorem afterExec_takeStop (s : State) (e : Raise) : afterExec (.next (s.takeStop e)) = .next (s.takeStop e) :=
  congrArg Host.Outcome.next (endTest_of_halted _ _ (s.takeStop_status e))

theorem reject_groupVariant_of_fetchModRM_error {s : State} {rm : RM} {e : Raise} (op : Byte) (sub : BitVec 3)
    (hfetch : s.fetchModRM rm = .error e) : s.reject (.groupVariant op sub rm) = .next (s.takeStop e) := by
  simp [State.reject, hfetch]

theorem reject_groupVariant_of_modRMIn {s : State} {rm : RM} (op : Byte) (sub : BitVec 3) (hin : s.modRMIn rm) :
    s.reject (.groupVariant op sub rm) = .next (s.takeStop (.unimplementedOpcode op (some sub))) := by
  simp [State.reject, (fetchModRM_ok s rm).mpr hin]

/-- A group opcode whose ModRM fetches raise stops there, whether or not its sub-opcode is supported. -/
theorem step_group_of_fetchModRM_error {s : State} {op : Byte} {sub : BitVec 3} {rm : RM} {bs rest : List Byte}
    {e : Raise} (hop : op = 0x83 ∨ op = 0xFF) (hrun : s.status = .running) (hin : s.inBounds s.pc = true)
    (hwindow : s.window = op :: bs) (htake : takeModRM bs = .ok ((sub, rm), rest)) (hrest : 1 ≤ rest.length)
    (hfetch : s.fetchModRM rm = .error e) : step s = .next (s.takeStop e) := by
  rcases decode_group hop htake hrest with hdec | ⟨i, rest', hdec, hi⟩
  · rw [step_of_decode_error hrun hin (hwindow ▸ hdec), reject_groupVariant_of_fetchModRM_error op sub hfetch]
  · rw [step_of_decode_ok hrun hin (hwindow ▸ hdec), exec_of_fetchModRM_error hi hfetch, afterExec_takeStop]

/-- Settles O21: the bounds test of R71 comes before any fetch. -/
theorem eipOutOfRangeStops : Obligations.EipOutOfRangeStops := by
  intro s hrun hout
  exact step_of_pc_outOfBounds hrun ((inBounds_eq_false_iff s s.pc).mpr hout)

/-- Settles O22: the byte at `pc` is the first the decoder is shown, and its entry is empty. -/
theorem unregisteredOpcodeStops : Obligations.UnregisteredOpcodeStops := by
  intro s op hrun hop hcode
  obtain ⟨rest, hwindow, -⟩ := window_of_holdsCode_cons hcode (by simp)
  have hdec := decode_of_dispatch_none ((dispatch_eq_none_iff op).mpr hop) rest
  exact step_of_decode_error hrun (inBounds_pc_of_holdsCode hcode) (hwindow ▸ hdec)

/-- Settles O23: the ModRM bytes decode to the operand, or to one with the same fetches where some are missing; the
fetches come first, and the sub-opcode is rejected after them. -/
theorem unsupportedGroupVariantStops : Obligations.UnsupportedGroupVariantStops := by
  intro s op hrun
  refine ⟨fun sub rm hrm hsub => ⟨fun hcode => ?_, fun hcode hmissing => ?_⟩, fun hop hcode hmissing => ?_⟩
  · obtain ⟨hlen, -, hmax⟩ := Laws.EncodedLength.rm_encode_length sub rm
    obtain ⟨rest, hwindow, -⟩ := window_of_holdsCode_cons hcode (by omega)
    have hdec := decode_unsupported hsub (takeModRM_encode hrm sub rest)
    rw [step_of_decode_error hrun (inBounds_pc_of_holdsCode hcode) (hwindow ▸ hdec)]
    exact reject_groupVariant_of_modRMIn op sub (modRMIn_of_holdsCode hcode)
  · obtain ⟨rest, hwindow, hlen⟩ := window_of_holdsCode_cons (bs := (rm.encode sub).take 1) hcode (by simp)
    obtain ⟨rm', rest', htake, hsame⟩ := takeModRM_sameFetch hrm sub (bs := rest) (by simp at hlen; omega) s
    cases hfetch : s.fetchModRM rm with
    | ok u => exact absurd ((fetchModRM_ok s rm).mp hfetch) hmissing
    | error e =>
      obtain ⟨a, rfl⟩ := fetchModRM_error hfetch
      have hdec := decode_unsupported hsub htake
      refine ⟨a, rfl, ?_⟩
      rw [step_of_decode_error hrun (inBounds_pc_of_holdsCode hcode) (hwindow ▸ hdec)]
      exact reject_groupVariant_of_fetchModRM_error op sub (hsame.trans hfetch)
  · obtain ⟨bs, hwindow, hlen⟩ := window_of_holdsCode_cons hcode (by simp)
    simp only [List.nil_append, List.length_nil] at hwindow hlen
    obtain ⟨⟨⟨sub, rm⟩, rest⟩, htake, hrest⟩ := takeModRM_of_length (bs := bs) (by omega)
    exact step_group_of_fetchModRM_error hop hrun (inBounds_pc_of_holdsCode hcode) hwindow htake
      (by simp only at hrest; omega) (fetchModRM_of_modRM_missing hmissing rm)

end Sys2Proof.Machine
end

section
namespace Sys2Proof.Machine

/-! ### The bits of the FLAGS word (R25) -/

theorem Flag.bit_lt (f : Flag) : f.bit < 32 := by cases f <;> decide

theorem getLsbD_flagBit (f : Flag) (n : Nat) : (1#32 <<< f.bit).getLsbD n = decide (n = f.bit) := by
  rw [← BitVec.twoPow_eq, BitVec.getLsbD_twoPow]
  simp [f.bit_lt, eq_comm]

/-- Setting or clearing a flag, bit by bit: its own place holds the new value, every other is kept. -/
theorem getLsbD_putFlag (w : Word) (f : Flag) (b : Bool) (n : Nat) :
    (putFlag w f b).getLsbD n = if n = f.bit then b else w.getLsbD n := by
  cases b with
  | true =>
    rw [putFlag, if_pos rfl, BitVec.getLsbD_or, getLsbD_flagBit]
    by_cases h : n = f.bit <;> simp [h]
  | false =>
    rw [putFlag, if_neg Bool.false_ne_true, BitVec.getLsbD_and, BitVec.getLsbD_not, getLsbD_flagBit]
    cases hw : w.getLsbD n with
    | false => simp
    | true => by_cases h : n = f.bit <;> simp [BitVec.lt_of_getLsbD hw, h, f.bit_lt]

/-- The FLAGS word of R80, bit by bit. -/
theorem getLsbD_subFlags (w v1 v2 : Word) (n : Nat) :
    (subFlags w v1 v2).getLsbD n =
      if n = 11 then overflowSub v1 v2 else if n = 7 then signSub v1 v2
      else if n = 6 then zeroSub v1 v2 else if n = 0 then carrySub v1 v2 else w.getLsbD n := by
  simp only [subFlags, getLsbD_putFlag]
  rfl

theorem getFlag_subFlags (w v1 v2 : Word) :
    getFlag (subFlags w v1 v2) .cf = carrySub v1 v2 ∧ getFlag (subFlags w v1 v2) .zf = zeroSub v1 v2 ∧
      getFlag (subFlags w v1 v2) .sf = signSub v1 v2 ∧ getFlag (subFlags w v1 v2) .of = overflowSub v1 v2 := by
  simp only [getFlag, getLsbD_subFlags]
  exact ⟨rfl, rfl, rfl, rfl⟩

/-! ### What each of the four flags says (R80, R81) -/

/-- A borrow leaves the widened difference in `2^64 - 2^32 .. 2^64 - 1`, where bit 32 is set; without one the
difference is below `2^32`. -/
theorem carrySub_iff (v1 v2 : Word) : carrySub v1 v2 = true ↔ v1.toNat < v2.toNat := by
  rw [carrySub, ← BitVec.testBit_toNat, Nat.testBit_eq_decide_div_mod_eq, decide_eq_true_iff]
  simp only [wideSub, BitVec.toNat_sub, BitVec.toNat_setWidth]
  omega

theorem zeroSub_iff (v1 v2 : Word) : zeroSub v1 v2 = true ↔ v1 = v2 := by
  rw [zeroSub, beq_iff_eq, wideSub]
  bv_omega

/-- The low half of the widened difference is the difference modulo 2^32. -/
theorem lowHalf_wideSub (v1 v2 : Word) : (wideSub v1 v2).extractLsb' 0 32 = v1 - v2 := by
  rw [← BitVec.setWidth_eq_extractLsb' (by decide), wideSub]
  bv_omega

theorem signSub_eq_getLsbD (v1 v2 : Word) : signSub v1 v2 = (wideSub v1 v2).getLsbD 31 := by
  simp [signSub, BitVec.msb_eq_getLsbD_last]

theorem signSub_eq_msb (v1 v2 : Word) : signSub v1 v2 = (v1 - v2).msb := by
  rw [signSub, lowHalf_wideSub]

theorem overflowSub_eq (v1 v2 : Word) : overflowSub v1 v2 = (v1.msb != v2.msb && signSub v1 v2 != v1.msb) := rfl

theorem overflowSub_eq_ssubOverflow (v1 v2 : Word) : overflowSub v1 v2 = v1.ssubOverflow v2 := by
  rw [BitVec.ssubOverflow_eq, overflowSub_eq, signSub_eq_msb]
  cases v1.msb <;> cases v2.msb <;> simp

theorem overflowSub_iff (v1 v2 : Word) :
    overflowSub v1 v2 = true ↔ v1.toInt - v2.toInt < -2 ^ 31 ∨ 2 ^ 31 ≤ v1.toInt - v2.toInt := by
  rw [overflowSub_eq_ssubOverflow, BitVec.ssubOverflow, Bool.or_eq_true, decide_eq_true_iff, decide_eq_true_iff,
    or_comm]

/-- `SF ≠ OF` is the signed order. Operands of one sign cannot overflow, so `SF` is the sign of the exact difference;
operands of different signs are ordered by the sign of the first, which is what `SF` and `OF` together give. -/
theorem signSub_ne_overflowSub (v1 v2 : Word) : (signSub v1 v2 != overflowSub v1 v2) = v1.slt v2 := by
  by_cases hsigns : v1.msb = v2.msb
  · have hno : overflowSub v1 v2 = false := by simp [overflowSub_eq, hsigns]
    have hdiff : (v1 - v2).toInt = v1.toInt - v2.toInt :=
      BitVec.toInt_sub_of_not_ssubOverflow (by rw [← overflowSub_eq_ssubOverflow, hno]; decide)
    rw [hno, Bool.bne_false, signSub_eq_msb, BitVec.msb_eq_toInt, hdiff, BitVec.slt_eq_decide]
    simp
  · have hfirst : v1.slt v2 = v1.msb := by
      rw [BitVec.slt_eq_not_ult_of_msb_neq hsigns, BitVec.ult_eq_msb_of_msb_neq hsigns, Bool.eq_not_of_ne hsigns]
    rw [hfirst, overflowSub_eq, bne_iff_ne.mpr hsigns, Bool.true_and, Bool.bne_self_left]

/-- Settles O6: the FLAGS word bit by bit, and the borrow in the widened difference. -/
theorem updateFlagsSubWritesFourFlags : Obligations.UpdateFlagsSubWritesFourFlags := by
  intro s v1 v2
  dsimp only
  simp only [State.updateFlagsSub_eflags, getLsbD_subFlags]
  refine ⟨rfl, carrySub_iff v1 v2, beq_iff_eq, signSub_eq_getLsbD v1 v2, ?_, fun n h0 h6 h7 h11 => ?_, rfl⟩
  · have hsign : signSub v1 v2 = (v1.setWidth 64 - v2.setWidth 64).getLsbD 31 := signSub_eq_getLsbD v1 v2
    simp [overflowSub_eq, hsign]
  · simp [h0, h6, h7, h11]

/-- Settles O7: each condition reads the flags R80 writes, and `SF ≠ OF` is the signed order. -/
theorem flagsDecideComparisons : Obligations.FlagsDecideComparisons := by
  intro s v1 v2
  obtain ⟨hcf, hzf, hsf, hof⟩ := getFlag_subFlags s.eflags v1 v2
  have hless : (signSub v1 v2 != overflowSub v1 v2) = true ↔ v1.toInt < v2.toInt := by
    rw [signSub_ne_overflowSub, BitVec.slt_iff_toInt_lt]
  simp only [State.updateFlagsSub_eflags, condC, condZ, condO, condL, condLE, hcf, hzf, hsf, hof]
  refine ⟨carrySub_iff v1 v2, zeroSub_iff v1 v2, sub_eq_zero.symm, overflowSub_iff v1 v2, hless, ?_⟩
  rw [Bool.or_eq_true, hless, zeroSub_iff, ← BitVec.toInt_inj, Int.le_iff_eq_or_lt]

end Sys2Proof.Machine
end

section
namespace Sys2Proof.Machine
open Sys2Proof.Claims

/-! ### The `r/m32` operand (R55, R57, R58) -/

theorem readRM32_of_operand {s : State} {rm : RM} {v : Word} (h : operand s rm = some v) :
    s.readRM32 rm = .ok v := by
  cases rm with
  | reg r => exact congrArg Except.ok (Option.some.inj h)
  | mem m =>
    simp only [operand] at h
    split at h
    case h_1 a hea =>
      obtain ⟨hin, hword⟩ := Option.ite_none_right_eq_some.mp h
      exact (readRM32_ok _ _ _).mpr (.inr ⟨m, a, rfl, hea, hin, (Option.some.inj hword).symm⟩)
    case h_2 => cases h

/-- An operand that has a value can be written. -/
theorem writeRM32_of_operand {s : State} {rm : RM} {v : Word} (h : operand s rm = some v) (w : Word) :
    s.writeRM32 rm w = .ok (withOperand s rm w) := by
  rcases (readRM32_ok s rm v).mp (readRM32_of_operand h) with ⟨r, rfl, -⟩ | ⟨m, a, rfl, hea, hin, -⟩
  · rfl
  · simp only [withOperand, hea]
    exact (writeRM32_ok _ _ _ _).mpr (.inr ⟨m, a, rfl, hea, hin, rfl⟩)

@[simp] theorem withOperand_pc (s : State) (rm : RM) (w : Word) : (withOperand s rm w).pc = s.pc := by
  cases rm with
  | reg r => rfl
  | mem m => simp only [withOperand]; split <;> rfl

@[simp] theorem withOperand_eflags (s : State) (rm : RM) (w : Word) :
    (withOperand s rm w).eflags = s.eflags := by
  cases rm with
  | reg r => rfl
  | mem m => simp only [withOperand]; split <;> rfl

theorem advance_withOperand (s : State) (rm : RM) (w : Word) (n : Nat) :
    (withOperand s rm w).advance n = { withOperand s rm w with pc := after s n } := by
  rw [State.advance, withOperand_pc]
  rfl

/-- The last lines of an instruction that writes its operand: the write cannot raise where the operand was read. -/
theorem attempt_writeRM32 {s : State} {rm : RM} {v : Word} (h : operand s rm = some v) (w : Word)
    (f : State → State) :
    attempt s (s.writeRM32 rm w >>= fun t => .ok (f t)) = .next (f (withOperand s rm w)) := by
  rw [writeRM32_of_operand h, ok_bind, attempt_ok]

theorem ea_of_sibStop {m : MemForm} {eip : Word} {k : Stop} (h : sibStop m eip = some k) (s : State) :
    ∃ e, s.ea m = .error e ∧ e.stop eip = k := by
  cases m <;> cases h <;> exact ⟨_, rfl, rfl⟩

/-! ### Instructions that read their operand right after the ModRM bytes -/

/-- The fetch stops of every instruction with an `r/m32` operand. -/
theorem fetchStops_of_rm? {i : Instr} {rm : RM} (h : i.rm? = some rm) (s : State) : fetchStops i rm s := by
  intro hmissing
  cases hfetch : s.fetchModRM rm with
  | ok u => exact absurd ((fetchModRM_ok s rm).mp hfetch) hmissing
  | error e =>
    obtain ⟨a, rfl⟩ := fetchModRM_error hfetch
    exact ⟨a, rfl, exec_of_fetchModRM_error h hfetch⟩

section
variable {i : Instr} {rm : RM} {s : State} {k : Word → Except Raise State}
  (hexec : exec i s = attempt s (s.fetchModRM rm >>= fun _ => s.readRM32 rm >>= k))
include hexec

theorem exec_of_operand {v : Word} (hin : s.modRMIn rm) (hv : operand s rm = some v) :
    exec i s = attempt s (k v) := by
  rw [hexec, (fetchModRM_ok s rm).mpr hin, ok_bind, readRM32_of_operand hv, ok_bind]

theorem exec_of_readRM32_error {e : Raise} (hin : s.modRMIn rm) (hread : s.readRM32 rm = .error e) :
    exec i s = .next (s.takeStop e) := by
  rw [hexec, (fetchModRM_ok s rm).mpr hin, ok_bind, hread, error_bind, attempt_error]

/-- The two raises of the read: no effective address, and an address out of memory. -/
theorem operandStops_of_readRM32 : operandStops i rm s rm.length := by
  rintro hin m rfl
  refine ⟨fun stop hstop => ?_, fun a hea hout => ?_⟩
  · obtain ⟨e, hea, rfl⟩ := ea_of_sibStop hstop s
    exact exec_of_readRM32_error hexec hin ((readRM32_error _ _ _).mpr ⟨m, rfl, .inl hea⟩)
  · exact exec_of_readRM32_error hexec hin ((readRM32_error _ _ _).mpr ⟨m, rfl, .inr ⟨a, hea, hout, rfl⟩⟩)

end

/-! ### Instructions that fetch an immediate byte after reading their operand (R83, R84, R85) -/

theorem codeAt_succ (s : State) (k n : Nat) :
    s.codeAt k (n + 1) ↔ s.codeAt k n ∧ s.inBounds (after s (k + n)) = true :=
  Nat.forall_lt_succ_right

section
variable {i : Instr} {rm : RM} {s : State} {k : Word → Except Raise State}
  (hexec : exec i s = attempt s (s.fetchModRM rm >>= fun _ => s.readRM32 rm >>= fun v =>
    s.fetchU8 (1 + rm.length) >>= fun _ => k v))
include hexec

theorem exec_of_operand_imm8 {v : Word} (hin : s.codeAt 1 (rm.length + 1)) (hv : operand s rm = some v) :
    exec i s = attempt s (k v) := by
  obtain ⟨hmodRM, himm⟩ := (codeAt_succ _ _ _).mp hin
  rw [exec_of_operand hexec hmodRM hv, (fetchU8_ok s _ _).mpr ⟨himm, rfl⟩, ok_bind]

theorem stops_of_imm8_missing {v : Word} (hin : s.modRMIn rm) (hv : operand s rm = some v)
    (hout : s.inBounds (after s (1 + rm.length)) = false) :
    stops i s (.outOfBoundsAccess (after s (1 + rm.length)) s.pc) := by
  have hfetch := (fetchU8_error s (1 + rm.length) _).mpr ⟨hout, rfl⟩
  rw [stops, exec_of_operand hexec hin hv, hfetch, error_bind, attempt_error]
  rfl

end

/-! ### The arithmetic instructions (R82 to R85, R87, R89) -/

/-- Settles O28: the operand is read, the sum written back. -/
theorem addRegister : Obligations.AddRegister := by
  intro rm src s
  refine ⟨rfl, fun v hin hv => ?_, fetchStops_of_rm? rfl s, operandStops_of_readRM32 rfl⟩
  rw [exec_of_operand rfl hin hv, attempt_writeRM32 hv, advance_withOperand]
  rfl

/-- Settles O29: the operand is read, the immediate fetched, the sum written back. -/
theorem addImmediate : Obligations.AddImmediate := by
  intro rm imm s
  refine ⟨rfl, fun v hin hv => ?_, fetchStops_of_rm? rfl s, operandStops_of_readRM32 rfl,
    fun v => stops_of_imm8_missing rfl⟩
  rw [exec_of_operand_imm8 rfl hin hv, attempt_writeRM32 hv, advance_withOperand]
  rfl

/-- Settles O30: as `ADD`, with the difference written back and the flags of the operand read. -/
theorem subImmediate : Obligations.SubImmediate := by
  intro rm imm s
  refine ⟨rfl, fun v hin hv => ?_, fetchStops_of_rm? rfl s, operandStops_of_readRM32 rfl,
    fun v => stops_of_imm8_missing rfl⟩
  rw [exec_of_operand_imm8 rfl hin hv, attempt_writeRM32 hv]
  simp only [State.advance, State.updateFlagsSub, withOperand_pc, withOperand_eflags]
  rfl

/-- Settles O31: the operand is read, the immediate fetched, and only the flags and `pc` written. -/
theorem compareImmediate : Obligations.CompareImmediate := by
  intro rm imm s
  refine ⟨rfl, fun v hin hv => ?_, fetchStops_of_rm? rfl s, operandStops_of_readRM32 rfl,
    fun v => stops_of_imm8_missing rfl⟩
  rw [exec_of_operand_imm8 rfl hin hv]
  rfl

/-- Settles O32: the operand is read, its successor written back. -/
theorem increment : Obligations.Increment := by
  intro rm s
  refine ⟨rfl, fun v hin hv => ?_, fetchStops_of_rm? rfl s, operandStops_of_readRM32 rfl⟩
  rw [exec_of_operand rfl hin hv, attempt_writeRM32 hv, advance_withOperand]

/-- Settles O33: the operand is read, and only the flags and `pc` written. -/
theorem compareRegister : Obligations.CompareRegister := by
  intro lhs rm s
  refine ⟨rfl, fun v hin hv => ?_, fetchStops_of_rm? rfl s, operandStops_of_readRM32 rfl⟩
  rw [exec_of_operand rfl hin hv]
  rfl

end Sys2Proof.Machine
end

section
namespace Sys2Proof.Machine
open Sys2Proof.Claims

/-! ### The fetch of an immediate word (R10, R39) -/

/-- Code bytes exist exactly when a first part of them and the rest do. -/
theorem codeAt_add (s : State) (k n m : Nat) : s.codeAt k (n + m) ↔ s.codeAt k n ∧ s.codeAt (k + n) m := by
  induction m with
  | zero => simp [State.codeAt]
  | succ m ih => rw [← Nat.add_assoc, codeAt_succ, codeAt_succ, ih, and_assoc, Nat.add_assoc]

theorem fetch32_of_codeAt {s : State} {k : Nat} (h : s.codeAt k 4) :
    s.fetch32 k = .ok (s.mem.word (after s k)) :=
  (fetch32_ok s k _).mpr ⟨(inBounds4_pc s k).mpr h, rfl⟩

theorem fetch32_of_not_codeAt {s : State} {k : Nat} (h : ¬ s.codeAt k 4) :
    s.fetch32 k = .error (.outOfBoundsAccess (after s k)) :=
  (fetch32_error s k _).mpr ⟨Bool.eq_false_iff.mpr ((inBounds4_pc s k).not.mpr h), rfl⟩

/-! ### Instructions that write their operand without reading it (R91, R94) -/

section
variable {i : Instr} {rm : RM} {s : State} {r : Except Raise State}

theorem exec_of_modRMIn (hexec : exec i s = attempt s (s.fetchModRM rm >>= fun _ => r)) (hin : s.modRMIn rm) :
    exec i s = attempt s r := by
  rw [hexec, (fetchModRM_ok s rm).mpr hin, ok_bind]

variable (hexec : exec i s = attempt s (s.fetchModRM rm >>= fun _ => s.fetch32 (1 + rm.length) >>= fun _ => r))
include hexec

theorem exec_of_modRM_imm32 (hin : s.codeAt 1 (rm.length + 4)) : exec i s = attempt s r := by
  obtain ⟨hmodRM, himm⟩ := (codeAt_add _ _ _ _).mp hin
  rw [exec_of_modRMIn hexec hmodRM, fetch32_of_codeAt himm, ok_bind]

theorem stops_of_imm32_missing (hin : s.modRMIn rm) (hout : ¬ s.codeAt (1 + rm.length) 4) :
    stops i s (.outOfBoundsAccess (after s (1 + rm.length)) s.pc) := by
  rw [stops, exec_of_modRMIn hexec hin, fetch32_of_not_codeAt hout, error_bind, attempt_error]
  rfl

end

section
variable {i : Instr} {rm : RM} {s : State} {w : Word} {n : Nat}

/-- An operand that has a value is replaced, and `pc` advanced. -/
theorem exec_of_writeRM32 {len : Nat}
    (hexec : s.codeAt 1 n → exec i s = attempt s (s.writeRM32 rm w >>= fun t => .ok (t.advance len)))
    (hin : s.codeAt 1 n) (hsome : (operand s rm).isSome = true) :
    exec i s = .next { withOperand s rm w with pc := after s len } := by
  obtain ⟨v, hv⟩ := Option.isSome_iff_exists.mp hsome
  rw [hexec hin, attempt_writeRM32 hv, advance_withOperand]

/-- The two raises of the write, once the first `n` bytes after the opcode are fetched: no effective address, and an
address out of memory. -/
theorem operandStops_of_writeRM32 {k : State → Except Raise State}
    (hexec : s.codeAt 1 n → exec i s = attempt s (s.writeRM32 rm w >>= k)) : operandStops i rm s n := by
  have hraise {e : Raise} (hin : s.codeAt 1 n) (hwrite : s.writeRM32 rm w = .error e) :
      exec i s = .next (s.takeStop e) := by
    rw [hexec hin, hwrite, error_bind, attempt_error]
  rintro hin m rfl
  refine ⟨fun stop hstop => ?_, fun a hea hout => ?_⟩
  · obtain ⟨e, hea, rfl⟩ := ea_of_sibStop hstop s
    exact hraise hin ((writeRM32_error _ _ _ _).mpr ⟨m, rfl, .inl hea⟩)
  · exact hraise hin ((writeRM32_error _ _ _ _).mpr ⟨m, rfl, .inr ⟨a, hea, hout, rfl⟩⟩)

end

/-! ### The data movement instructions (R91 to R94) -/

/-- Settles O34: once the ModRM bytes are fetched, all that is left is the write of the operand. -/
theorem moveToOperand : Obligations.MoveToOperand := by
  intro rm src s
  have hexec : s.modRMIn rm → exec (.movRmR32 rm src) s = attempt s (s.writeRM32 rm (s.x.get src) >>= _) :=
    exec_of_modRMIn rfl
  exact ⟨rfl, exec_of_writeRM32 hexec, fetchStops_of_rm? rfl s, operandStops_of_writeRM32 hexec⟩

/-- Settles O35: the operand is read, and only the register and `pc` written. -/
theorem moveFromOperand : Obligations.MoveFromOperand := by
  intro dst rm s
  refine ⟨rfl, fun v hin hv => ?_, fetchStops_of_rm? rfl s, operandStops_of_readRM32 rfl⟩
  rw [exec_of_operand rfl hin hv]
  rfl

/-- Settles O37: the write of the operand, and so its address, comes after the fetch of the immediate. -/
theorem moveImmediateToOperand : Obligations.MoveImmediateToOperand := by
  intro ignored rm imm s
  have hexec : s.codeAt 1 (rm.length + 4) →
      exec (.movRmImm32 ignored rm imm) s = attempt s (s.writeRM32 rm imm >>= _) := exec_of_modRM_imm32 rfl
  exact ⟨rfl, exec_of_writeRM32 hexec, fetchStops_of_rm? rfl s, stops_of_imm32_missing rfl,
    operandStops_of_writeRM32 hexec⟩

/-- Where the low three bits of an opcode base are clear, joining the register's bits adds them (R63). -/
theorem plusReg_eq_add {base : Byte} (h : base &&& 7 = 0) (r : Reg) :
    plusReg base r = base + r.bits.setWidth 8 := by
  have hbits : 7 &&& r.bits.setWidth 8 = r.bits.setWidth 8 := by cases r <;> rfl
  have hdisjoint : base &&& r.bits.setWidth 8 = 0 := by
    rw [← hbits, ← BitVec.and_assoc, h]
    exact BitVec.zero_and
  exact (BitVec.add_eq_or_of_and_eq_zero _ _ hdisjoint).symm

/-- With its opcode byte in memory, `MOV r32, imm32` is the fetch of its immediate and the write of the register. -/
theorem exec_movR32Imm32 (dst : Reg) (imm : Word) {s : State} (h : s.inBounds s.pc = true) :
    exec (.movR32Imm32 dst imm) s = attempt s (s.fetch32 1 >>= fun _ => .ok ((s.setReg dst imm).advance 5)) := by
  have hopcode : s.fetchU8 0 = .ok (s.mem.read (after s 0).toNat) :=
    (fetchU8_ok s 0 _).mpr ⟨by rwa [BitVec.add_zero], rfl⟩
  rw [exec, execMovR32Imm32, hopcode, ok_bind]

/-- Settles O36: the immediate's fetch is the only one that can raise. -/
theorem moveImmediateToRegister : Obligations.MoveImmediateToRegister := by
  intro dst imm s
  refine ⟨congrArg (· :: wordBytes imm) (plusReg_eq_add rfl dst), fun hpc => ⟨fun hin => ?_, fun hout => ?_⟩⟩
  · rw [exec_movR32Imm32 dst imm hpc, fetch32_of_codeAt hin, ok_bind, attempt_ok]
    rfl
  · rw [stops, exec_movR32Imm32 dst imm hpc, fetch32_of_not_codeAt hout, error_bind, attempt_error]
    rfl

end Sys2Proof.Machine
end

section
namespace Sys2Proof.Machine
open Sys2Proof.Claims

/-! ### The fetch of one byte of code (R10, R39) -/

theorem codeAt_one (s : State) (k : Nat) : s.codeAt k 1 ↔ s.inBounds (after s k) = true := by
  simp [State.codeAt, after]

theorem fetchU8_of_codeAt {s : State} {k : Nat} (h : s.codeAt k 1) :
    s.fetchU8 k = .ok (s.mem.read (after s k).toNat) :=
  (fetchU8_ok s k _).mpr ⟨(codeAt_one s k).mp h, rfl⟩

theorem fetchU8_of_not_codeAt {s : State} {k : Nat} (h : ¬ s.codeAt k 1) :
    s.fetchU8 k = .error (.outOfBoundsAccess (after s k)) :=
  (fetchU8_error s k _).mpr ⟨Bool.eq_false_iff.mpr ((codeAt_one s k).not.mp h), rfl⟩

/-- The opcode byte of an instruction whose `pc` is in memory is fetched. -/
theorem fetchU8_opcode {s : State} (h : s.inBounds s.pc = true) : s.fetchU8 0 = .ok (s.mem.read (after s 0).toNat) :=
  fetchU8_of_codeAt ((codeAt_one s 0).mpr (by rwa [after, BitVec.add_zero]))

/-! ### Instructions that begin with an operation that may raise -/

section
variable {i : Instr} {s : State} {α : Type} {x : Except Raise α} {k : α → Except Raise State}
  (hexec : exec i s = attempt s (x >>= k))
include hexec

theorem exec_of_ok {b : α} (hx : x = .ok b) : exec i s = attempt s (k b) := by
  rw [hexec, hx, ok_bind]

theorem stops_of_outOfBounds {a : Word} (hx : x = .error (.outOfBoundsAccess a)) :
    stops i s (.outOfBoundsAccess a s.pc) := by
  rw [stops, hexec, hx, error_bind, attempt_error]
  rfl

end

/-! ### Instructions that fetch, push, and then set `pc` (R95, R97, R98, R99) -/

section
variable {i : Instr} {s : State} {α : Type} {fetch : Except Raise α} {b : α} {v : Word} {f : State → State}
  (hexec : exec i s = attempt s (fetch >>= fun _ => s.push32 v >>= fun t => .ok (f t)))
include hexec

/-- The whole effect, where the fetch and the stack slot are in memory. -/
theorem exec_of_push32 (hfetch : fetch = .ok b) (hslot : s.inBounds4 (s.x.esp - 4) = true) :
    exec i s = .next (f { s with
      x := { s.x with esp := s.x.esp - 4 }, mem := s.mem.storeWord (s.x.esp - 4) v }) := by
  rw [exec_of_ok (exec_of_ok hexec hfetch) ((push32_ok s v _).mpr ⟨hslot, rfl⟩), attempt_ok]
  rfl

theorem stops_of_push32 (hfetch : fetch = .ok b) (hslot : s.inBounds4 (s.x.esp - 4) = false) :
    stops i s (.outOfBoundsAccess (s.x.esp - 4) s.pc) :=
  stops_of_outOfBounds (exec_of_ok hexec hfetch) ((push32_error s v _).mpr ⟨hslot, rfl⟩)

end

/-! ### Instructions that pop, from `s` itself or from a state `u` reached on the way (R96, R100, R101) -/

section
variable {i : Instr} {s u : State} {k : Word × State → Except Raise State}
  (hexec : exec i s = attempt s (u.pop32 >>= k))
include hexec

theorem exec_of_pop32 (hslot : u.inBounds4 u.x.esp = true) :
    exec i s = attempt s (k (u.mem.word u.x.esp, { u with x := { u.x with esp := u.x.esp + 4 } })) :=
  exec_of_ok hexec ((pop32_ok u _).mpr ⟨hslot, rfl⟩)

theorem stops_of_pop32 (hslot : u.inBounds4 u.x.esp = false) : stops i s (.outOfBoundsAccess u.x.esp s.pc) :=
  stops_of_outOfBounds hexec ((pop32_error u _).mpr ⟨hslot, rfl⟩)

end

/-! ### The stack instructions (R95 to R101) -/

/-- The extension of the `PUSH imm8` byte, by the launch's setting of the open parameter (R98). -/
theorem extendPush_eq (s : State) (imm : Byte) :
    s.extendPush imm = if s.launch.pushImm8Extend = .sign then imm.signExtend 32 else imm.setWidth 32 := by
  rw [State.extendPush]
  cases s.launch.pushImm8Extend <;> rfl

/-- Settles O38: the opcode byte is in memory, so the push alone can raise; it stores the register as it was. -/
theorem pushRegister : Obligations.PushRegister := by
  intro r s
  have hexec : exec (.pushR32 r) s =
      attempt s (s.fetchU8 0 >>= fun _ => s.push32 (s.x.get r) >>= fun t => .ok (t.advance 1)) := rfl
  exact ⟨congrArg ([·]) (plusReg_eq_add rfl r), fun hpc =>
    ⟨exec_of_push32 hexec (fetchU8_opcode hpc), stops_of_push32 hexec (fetchU8_opcode hpc)⟩⟩

/-- Settles O39: the opcode byte is in memory, so the pop alone can raise; the register is written last. -/
theorem popRegister : Obligations.PopRegister := by
  intro r s
  have hexec : exec (.popR32 r) s = attempt s
      (s.fetchU8 0 >>= fun _ => s.pop32 >>= fun p => .ok ((p.2.setReg r p.1).advance 1)) := rfl
  refine ⟨congrArg ([·]) (plusReg_eq_add rfl r), fun hpc => ?_⟩
  have hpop := exec_of_ok hexec (fetchU8_opcode hpc)
  exact ⟨exec_of_pop32 hpop, stops_of_pop32 hpop⟩

/-- Settles O40: the immediate is fetched, then pushed. -/
theorem pushImmediateWord : Obligations.PushImmediateWord := by
  intro imm s
  have hexec : exec (.pushImm32 imm) s =
      attempt s (s.fetch32 1 >>= fun _ => s.push32 imm >>= fun t => .ok (t.advance 5)) := rfl
  exact ⟨rfl, fun hin => exec_of_push32 hexec (fetch32_of_codeAt hin),
    fun hout => stops_of_outOfBounds hexec (fetch32_of_not_codeAt hout),
    fun hin => stops_of_push32 hexec (fetch32_of_codeAt hin)⟩

/-- Settles O41: the byte is fetched, then its extension pushed. -/
theorem pushImmediateByte : Obligations.PushImmediateByte := by
  intro imm s
  have hexec : exec (.pushImm8 imm) s =
      attempt s (s.fetchU8 1 >>= fun _ => s.push32 (s.extendPush imm) >>= fun t => .ok (t.advance 2)) := rfl
  rw [← extendPush_eq]
  exact ⟨rfl, fun hin => exec_of_push32 hexec (fetchU8_of_codeAt hin),
    fun hout => stops_of_outOfBounds hexec (fetchU8_of_not_codeAt hout),
    fun hin => stops_of_push32 hexec (fetchU8_of_codeAt hin)⟩

/-- Settles O42: the displacement is fetched, then the return address pushed. -/
theorem callRelative : Obligations.CallRelative := by
  intro rel s
  have hexec : exec (.callRel32 rel) s =
      attempt s (s.fetch32 1 >>= fun _ => s.push32 (s.pc + 5) >>= fun t => .ok (t.jump (s.target 5 rel))) := rfl
  exact ⟨rfl, fun hin => exec_of_push32 hexec (fetch32_of_codeAt hin),
    fun hout => stops_of_outOfBounds hexec (fetch32_of_not_codeAt hout),
    fun hin => stops_of_push32 hexec (fetch32_of_codeAt hin)⟩

/-- Settles O43: the popped word goes to `pc`. -/
theorem returnPopsPc : Obligations.ReturnPopsPc := by
  intro s
  have hexec : exec .ret s = attempt s (s.pop32 >>= fun p => .ok (p.2.jump p.1)) := rfl
  exact ⟨rfl, exec_of_pop32 hexec, stops_of_pop32 hexec⟩

/-- Settles O44: the pop is from the state whose `ESP` is the old `EBP`, but a raise stops in the state before it. -/
theorem leaveRestoresFrame : Obligations.LeaveRestoresFrame := by
  intro s
  have hexec : exec .leave s = attempt s
      ((s.setReg .esp s.x.ebp).pop32 >>= fun p => .ok ((p.2.setReg .ebp p.1).advance 1)) := rfl
  exact ⟨rfl, exec_of_pop32 hexec, stops_of_pop32 hexec⟩

end Sys2Proof.Machine
end

section
namespace Sys2Proof.Machine
open Sys2Proof.Claims

/-! ### Jumps with a displacement byte (R104, R106) -/

/-- The two endings of an instruction that fetches its displacement byte and then completes. -/
theorem endings_of_disp8 {i : Instr} {s t : State} (hexec : exec i s = attempt s (s.fetchU8 1 >>= fun _ => .ok t)) :
    (s.inBounds (after s 1) = true → exec i s = .next t) ∧
      (s.inBounds (after s 1) = false → stops i s (.outOfBoundsAccess (after s 1) s.pc)) :=
  ⟨fun hin => exec_of_ok hexec ((fetchU8_ok s 1 _).mpr ⟨hin, rfl⟩),
    fun hout => stops_of_outOfBounds hexec ((fetchU8_error s 1 _).mpr ⟨hout, rfl⟩)⟩

/-- The condition decides the new `pc` alone, and only after the fetch. -/
theorem jumpIf_eq (taken : Bool) (rel : Byte) (s : State) :
    jumpIf taken rel s = attempt s (s.fetchU8 1 >>= fun _ =>
      .ok { s with pc := if taken then s.pc + rel.signExtend 32 + 2 else s.pc + 2 }) := by
  cases taken <;> rfl

/-! ### The control flow instructions (R104 to R116) -/

/-- Settles O47: the fetch of the displacement byte alone can raise. -/
theorem jumpShort : Obligations.JumpShort := by
  intro rel s
  have hexec : exec (.jmpRel8 rel) s =
      attempt s (s.fetchU8 1 >>= fun _ => .ok (s.jump (s.target 2 (sext32 rel)))) := rfl
  exact ⟨rfl, endings_of_disp8 hexec⟩

/-- Settles O48: the fetch of the displacement word alone can raise. -/
theorem jumpNear : Obligations.JumpNear := by
  intro rel s
  have hexec : exec (.jmpRel32 rel) s = attempt s (s.fetch32 1 >>= fun _ => .ok (s.jump (s.target 5 rel))) := rfl
  exact ⟨rfl, fun hin => exec_of_ok hexec (fetch32_of_codeAt hin),
    fun hout => stops_of_outOfBounds hexec (fetch32_of_not_codeAt hout)⟩

/-- Settles O49: the ten differ in their opcode and their condition, and each is `jumpIf` of that condition. -/
theorem conditionalJumps : Obligations.ConditionalJumps := by
  intro rel s o c z n p hp
  have hjump : encode p.1 = [p.2.1, rel] ∧ exec p.1 s = jumpIf p.2.2 rel s := by
    simp only [List.mem_cons, List.not_mem_nil, or_false] at hp
    rcases hp with rfl | rfl | rfl | rfl | rfl | rfl | rfl | rfl | rfl | rfl <;> exact ⟨rfl, rfl⟩
  obtain ⟨hcode, hexec⟩ := hjump
  exact ⟨hcode, endings_of_disp8 (hexec.trans (jumpIf_eq p.2.2 rel s))⟩

end Sys2Proof.Machine
end

section
namespace Sys2Proof.Machine

/-! ### What an instruction can answer (R70, R125) -/

/-- Where the pseudocode does not raise, it leaves the run status of `s` as it was. -/
def KeepsStatus (s : State) (r : Except Raise State) : Prop := ∀ t, r = .ok t → t.status = s.status

theorem KeepsStatus.ok {s t : State} (h : t.status = s.status) : KeepsStatus s (.ok t) := by
  rintro _ ⟨⟩
  exact h

theorem KeepsStatus.bind {α : Type} {s : State} {x : Except Raise α} {f : α → Except Raise State}
    (h : ∀ a, x = .ok a → KeepsStatus s (f a)) : KeepsStatus s (x >>= f) := by
  intro t ht
  obtain ⟨a, hx, hf⟩ := (bind_ok_iff x f t).mp ht
  exact h a hx t hf

/-- A write to the operand, and then any change that leaves the run status alone. -/
theorem KeepsStatus.writeRM32 {s : State} {rm : RM} {v : Word} {f : State → State}
    (hf : ∀ t, (f t).status = t.status) : KeepsStatus s (s.writeRM32 rm v >>= fun t => .ok (f t)) := by
  refine .bind fun t hw => .ok ((hf t).trans ?_)
  rcases (writeRM32_ok s rm v t).mp hw with ⟨r, -, rfl⟩ | ⟨m, a, -, -, -, rfl⟩ <;> rfl

theorem KeepsStatus.push32 {s : State} {v : Word} {f : State → State} (hf : ∀ t, (f t).status = t.status) :
    KeepsStatus s (s.push32 v >>= fun t => .ok (f t)) := by
  refine .bind fun t hp => .ok ((hf t).trans ?_)
  obtain ⟨-, rfl⟩ := (push32_ok s v t).mp hp
  rfl

theorem pop32_status {s : State} {p : Word × State} (h : s.pop32 = .ok p) : p.2.status = s.status := by
  obtain ⟨-, rfl⟩ := (pop32_ok s p).mp h
  rfl

/-- A conditional jump is one attempt that leaves the run status alone, taken or not. -/
theorem jumpIf_eq_attempt (taken : Bool) (rel : Byte) (s : State) :
    ∃ r, jumpIf taken rel s = attempt s r ∧ KeepsStatus s r :=
  ⟨_, jumpIf_eq taken rel s, .bind fun _ _ => .ok rfl⟩

/-- Every instruction is one attempt from the state before it, and none touches the run status itself. -/
theorem exec_eq_attempt (i : Instr) (s : State) : ∃ r, exec i s = attempt s r ∧ KeepsStatus s r := by
  cases i with
  | addRmR32 | incRm | movRmImm32 => exact ⟨_, rfl, .bind fun _ _ => .bind fun _ _ => .writeRM32 fun _ => rfl⟩
  | addRmImm8 | subRmImm8 =>
    exact ⟨_, rfl, .bind fun _ _ => .bind fun _ _ => .bind fun _ _ => .writeRM32 fun _ => rfl⟩
  | movRmR32 => exact ⟨_, rfl, .bind fun _ _ => .writeRM32 fun _ => rfl⟩
  | cmpRmImm8 => exact ⟨_, rfl, .bind fun _ _ => .bind fun _ _ => .bind fun _ _ => .ok rfl⟩
  | cmpR32Rm | movR32Rm | movR32Imm32 => exact ⟨_, rfl, .bind fun _ _ => .bind fun _ _ => .ok rfl⟩
  | pushR32 | pushImm32 | pushImm8 | callRel32 => exact ⟨_, rfl, .bind fun _ _ => .push32 fun _ => rfl⟩
  | popR32 => exact ⟨_, rfl, .bind fun _ _ => .bind fun (_, _) hp => .ok (pop32_status hp)⟩
  | ret | leave => exact ⟨_, rfl, .bind fun (_, _) hp => .ok (pop32_status hp)⟩
  | jmpRel8 | jmpRel32 => exact ⟨_, rfl, .bind fun _ _ => .ok rfl⟩
  | jo rel | jno rel | jc rel | jnc rel | jz rel | jnz rel | js rel | jns rel | jl rel | jle rel =>
    exact jumpIf_eq_attempt _ rel s

/-- An instruction always answers a next state: its precise stop, or a state with the run status it began with. -/
theorem exec_cases (i : Instr) (s : State) :
    (∃ e, exec i s = .next (s.takeStop e)) ∨ ∃ t, exec i s = .next t ∧ t.status = s.status := by
  obtain ⟨r, hexec, hstatus⟩ := exec_eq_attempt i s
  cases r with
  | ok t => exact .inr ⟨t, hexec, hstatus t rfl⟩
  | error e => exact .inl ⟨e, hexec⟩

/-! ### What a step can answer (R70 to R72) -/

/-- A rejection that answers a next state is a precise stop. -/
theorem reject_next {s t : State} {d : DecodeError} (h : s.reject d = .next t) : ∃ e, t = s.takeStop e := by
  cases d with
  | truncated => cases h
  | emptyEntry op =>
    cases h
    exact ⟨_, rfl⟩
  | groupVariant op sub rm =>
    rcases (attempt_next s _ t).mp h with hok | ⟨e, -, rfl⟩
    · obtain ⟨_, -, hraise⟩ := (bind_ok_iff _ _ t).mp hok
      cases hraise
    · exact ⟨e, rfl⟩

theorem running_of_step_next {s t : State} (h : step s = .next t) : s.status = .running := by
  cases hs : s.status with
  | running => rfl
  | halted k => simp [step, hs] at h

/-- The three endings of a step that has a next state: `pc` out of memory (R71), the precise stop of a rejection or of
an instruction, and the end test on a completed instruction. -/
theorem step_cases {s t : State} (h : step s = .next t) :
    (s.inBounds s.pc = false ∧ t = s.halt (.eipOutOfRange s.pc)) ∨
    (s.inBounds s.pc = true ∧ ∃ e, t = s.takeStop e) ∨
    (s.inBounds s.pc = true ∧ ∃ i rest u, decode s.window = .ok (i, rest) ∧ exec i s = .next u ∧
      u.status = .running ∧ t = u.endTest) := by
  have hrun := running_of_step_next h
  cases hin : s.inBounds s.pc with
  | false =>
    rw [step_of_pc_outOfBounds hrun hin] at h
    cases h
    exact .inl ⟨rfl, rfl⟩
  | true =>
    refine .inr ?_
    cases hdec : decode s.window with
    | error d =>
      rw [step_of_decode_error hrun hin hdec] at h
      exact .inl ⟨rfl, reject_next h⟩
    | ok p =>
      obtain ⟨i, rest⟩ := p
      rw [step_of_decode_ok hrun hin hdec] at h
      rcases exec_cases i s with ⟨e, hexec⟩ | ⟨u, hexec, hstatus⟩
      · rw [hexec, afterExec_takeStop] at h
        cases h
        exact .inl ⟨rfl, e, rfl⟩
      · rw [hexec] at h
        cases h
        exact .inr ⟨rfl, i, rest, u, rfl, hexec, hstatus.trans hrun, rfl⟩

/-- The end test halts a running core in one way only: with the normal end, at `pc = 0` (R72). -/
theorem endTest_halted {u : State} {k : Stop} (hrun : u.status = .running) (h : u.endTest.status = .halted k) :
    k = .normalEnd ∧ u.pc = 0 ∧ u.endTest = u.halt .normalEnd := by
  by_cases hpc : u.pc = 0
  · have hend := endTest_zero u hpc hrun
    rw [hend] at h
    cases h
    exact ⟨rfl, hpc, hend⟩
  · rw [endTest_of_ne u hpc, hrun] at h
    cases h

/-- A raise ends in one of the three fatal stops of an instruction, with the `eip` it is given (R118). -/
theorem Raise.stop_cases (e : Raise) (eip : Word) :
    (∃ op sub, e.stop eip = .unimplementedOpcode op sub eip) ∨
    (∃ mod rm sib, e.stop eip = .unimplementedAddressingMode mod rm sib eip) ∨
    ∃ a, e.stop eip = .outOfBoundsAccess a eip := by
  cases e with
  | unimplementedOpcode op sub => exact .inl ⟨op, sub, rfl⟩
  | unimplementedAddressingMode mod rm sib => exact .inr (.inl ⟨mod, rm, sib, rfl⟩)
  | outOfBoundsAccess a => exact .inr (.inr ⟨a, rfl⟩)

/-! ### The obligations (R123, R125) -/

/-- Settles O24: a step stops fatally before the fetch or by a raise, each from the state before it; the end test
after a completed instruction gives no fatal stop. -/
theorem fatalStopsArePrecise : Obligations.FatalStopsArePrecise := by
  intro s t k hstep hk hfatal
  rcases step_cases hstep with ⟨-, rfl⟩ | ⟨-, e, rfl⟩ | ⟨-, i, rest, u, -, -, hrun, rfl⟩
  · cases hk
    exact ⟨rfl, .inl rfl⟩
  · cases hk
    exact ⟨rfl, .inr (e.stop_cases s.pc)⟩
  · exact absurd (endTest_halted hrun hk).1 hfatal

/-- Settles O25: neither the bounds test on `pc` nor a raise gives the normal end, so the end test gave it, after an
instruction that completed. -/
theorem normalEndMeansZeroPc : Obligations.NormalEndMeansZeroPc := by
  intro s t hstep hend
  rcases step_cases hstep with ⟨-, rfl⟩ | ⟨-, e, rfl⟩ | ⟨-, i, rest, u, hdec, hexec, hrun, rfl⟩
  · cases hend
  · exact absurd (Status.halted.inj hend) (e.stop_ne_normalEnd s.pc)
  · obtain ⟨-, hpc, htest⟩ := endTest_halted hrun hend
    exact ⟨by rw [htest]; exact hpc, i, rest, u, hdec, hexec, hrun, htest⟩

end Sys2Proof.Machine
end

section
namespace Sys2Proof
open Sys2Proof.Machine Sys2Proof.Claims

/-! ### Opcode bytes and their handlers (R63, R66) -/

/-- The opcode byte of a handler, which for a `+r` opcode names the register too; `dispatch` is its inverse. -/
def Handler.opcode (r : Reg) : Handler → Byte
  | .addRmR32 => 0x01
  | .cmpR32Rm => 0x3B
  | .pushR32 => plusReg 0x50 r
  | .popR32 => plusReg 0x58 r
  | .pushImm32 => 0x68
  | .pushImm8 => 0x6A
  | .jo => 0x70
  | .jno => 0x71
  | .jc => 0x72
  | .jnc => 0x73
  | .jz => 0x74
  | .jnz => 0x75
  | .js => 0x78
  | .jns => 0x79
  | .jl => 0x7C
  | .jle => 0x7E
  | .group83 => 0x83
  | .movRmR32 => 0x89
  | .movR32Rm => 0x8B
  | .movR32Imm32 => plusReg 0xB8 r
  | .ret => 0xC3
  | .movRmImm32 => 0xC7
  | .leave => 0xC9
  | .callRel32 => 0xE8
  | .jmpRel32 => 0xE9
  | .jmpRel8 => 0xEB
  | .groupFF => 0xFF

theorem dispatch_opcode (handler : Handler) (r : Reg) : dispatch (handler.opcode r) = some handler := by
  cases handler <;> cases r <;> decide

/-- A registered opcode byte is its handler's, with the register its low three bits name. -/
theorem opcode_of_dispatch {op : Byte} {handler : Handler} (h : dispatch op = some handler) :
    op = handler.opcode (.ofBits (rmField op)) := by
  have hall : ∀ op, (dispatch op).all (fun handler => op == handler.opcode (.ofBits (rmField op))) = true := by
    decide
  simpa [h] using hall op

theorem decode_opcode (handler : Handler) (r : Reg) (bs : List Byte) :
    decode (handler.opcode r :: bs) = decodeRest handler (handler.opcode r) bs :=
  decode_of_dispatch_some (dispatch_opcode handler r) bs

/-- The register of a `+r` opcode is the one it was made with (R63). -/
theorem ofBits_rmField_plusReg {base : Byte} (h : base &&& 7 = 0) (r : Reg) :
    Reg.ofBits (rmField (plusReg base r)) = r := by
  revert base
  cases r <;> decide

/-! ### Decoding an encoding (R50, R66) -/

theorem decodeModRM_encode (mk : Reg → RM → Instr) {rm : RM} (hrm : rm.wellFormed = true) (r : Reg)
    (rest : List Byte) : decodeModRM mk (rm.encode r.bits ++ rest) = .ok (mk r rm, rest) := by
  simp only [decodeModRM, takeModRM_encode hrm, ok_bind, Reg.ofBits_bits]

theorem decodeWord_wordBytes (mk : Word → Instr) (v : Word) (rest : List Byte) :
    decodeWord mk (wordBytes v ++ rest) = .ok (mk v, rest) := by
  rw [decodeWord, takeWord_wordBytes, ok_bind]

theorem decodeGroup83_encode {sub : BitVec 3} {mk : RM → Byte → Instr} (hsub : group83 sub = some mk) (op : Byte)
    {rm : RM} (hrm : rm.wellFormed = true) (b : Byte) (rest : List Byte) :
    decodeGroup83 op (rm.encode sub ++ b :: rest) = .ok (mk rm b, rest) := by
  simp only [decodeGroup83, takeModRM_encode hrm, ok_bind, hsub, takeByte_cons]

theorem decodeGroupFF_encode (op : Byte) {rm : RM} (hrm : rm.wellFormed = true) (rest : List Byte) :
    decodeGroupFF op (rm.encode 0 ++ rest) = .ok (.incRm rm, rest) := by
  rw [decodeGroupFF, takeModRM_encode hrm, ok_bind]
  exact if_pos rfl

theorem decodeC7_encode (ignored : BitVec 3) {rm : RM} (hrm : rm.wellFormed = true) (v : Word) (rest : List Byte) :
    decodeC7 (rm.encode ignored ++ (wordBytes v ++ rest)) = .ok (.movRmImm32 ignored rm v, rest) := by
  simp only [decodeC7, takeModRM_encode hrm, ok_bind, takeWord_wordBytes]

/-- Settles O11: the opcode byte selects the handler, which reads back the operand bytes the encoder wrote. -/
theorem decodeOfEncode : Obligations.DecodeOfEncode := by
  intro i rest hi
  cases i with
  | addRmR32 rm src =>
    exact (decode_opcode .addRmR32 src _).trans (decodeModRM_encode (fun reg rm => .addRmR32 rm reg) hi src rest)
  | cmpR32Rm lhs rm => exact (decode_opcode .cmpR32Rm lhs _).trans (decodeModRM_encode .cmpR32Rm hi lhs rest)
  | movRmR32 rm src =>
    exact (decode_opcode .movRmR32 src _).trans (decodeModRM_encode (fun reg rm => .movRmR32 rm reg) hi src rest)
  | movR32Rm dst rm => exact (decode_opcode .movR32Rm dst _).trans (decodeModRM_encode .movR32Rm hi dst rest)
  | pushR32 r =>
    refine (decode_opcode .pushR32 r rest).trans ?_
    exact congrArg (fun r => Except.ok (Instr.pushR32 r, rest)) (ofBits_rmField_plusReg rfl r)
  | popR32 r =>
    refine (decode_opcode .popR32 r rest).trans ?_
    exact congrArg (fun r => Except.ok (Instr.popR32 r, rest)) (ofBits_rmField_plusReg rfl r)
  | movR32Imm32 r v =>
    refine (decode_opcode .movR32Imm32 r _).trans ?_
    rw [decodeRest, Handler.opcode, ofBits_rmField_plusReg rfl]
    exact decodeWord_wordBytes _ v rest
  | pushImm32 v => exact (decode_opcode .pushImm32 .eax _).trans (decodeWord_wordBytes .pushImm32 v rest)
  | callRel32 v => exact (decode_opcode .callRel32 .eax _).trans (decodeWord_wordBytes .callRel32 v rest)
  | jmpRel32 v => exact (decode_opcode .jmpRel32 .eax _).trans (decodeWord_wordBytes .jmpRel32 v rest)
  | pushImm8 b => exact decode_opcode .pushImm8 .eax _
  | jmpRel8 b => exact decode_opcode .jmpRel8 .eax _
  | jo b => exact decode_opcode .jo .eax _
  | jno b => exact decode_opcode .jno .eax _
  | jc b => exact decode_opcode .jc .eax _
  | jnc b => exact decode_opcode .jnc .eax _
  | jz b => exact decode_opcode .jz .eax _
  | jnz b => exact decode_opcode .jnz .eax _
  | js b => exact decode_opcode .js .eax _
  | jns b => exact decode_opcode .jns .eax _
  | jl b => exact decode_opcode .jl .eax _
  | jle b => exact decode_opcode .jle .eax _
  | ret => exact decode_opcode .ret .eax _
  | leave => exact decode_opcode .leave .eax _
  | addRmImm8 rm b | subRmImm8 rm b | cmpRmImm8 rm b =>
    rw [encode, List.append_assoc]
    exact (decode_opcode .group83 .eax _).trans (decodeGroup83_encode rfl 0x83 hi b rest)
  | movRmImm32 ignored rm v =>
    rw [encode, List.append_assoc]
    exact (decode_opcode .movRmImm32 .eax _).trans (decodeC7_encode ignored hi v rest)
  | incRm rm => exact (decode_opcode .groupFF .eax _).trans (decodeGroupFF_encode 0xFF hi rest)

/-! ### Encoding what was decoded (R50, R66) -/

theorem takeByte_bind_ok {α : Type} {bs : List Byte} {k : Byte × List Byte → Except DecodeError α} {a : α}
    (h : (takeByte bs >>= k) = .ok a) : ∃ b bs', bs = b :: bs' ∧ k (b, bs') = .ok a := by
  obtain ⟨⟨b, bs'⟩, htake, hk⟩ := (bind_ok_iff _ _ _).mp h
  exact ⟨b, bs', takeByte_ok htake, hk⟩

theorem takeWord_bind_ok {α : Type} {bs : List Byte} {k : Word × List Byte → Except DecodeError α} {a : α}
    (h : (takeWord bs >>= k) = .ok a) : ∃ v bs', bs = wordBytes v ++ bs' ∧ k (v, bs') = .ok a := by
  obtain ⟨⟨v, bs'⟩, htake, hk⟩ := (bind_ok_iff _ _ _).mp h
  exact ⟨v, bs', takeWord_ok htake, hk⟩

/-- The form read from the `rm = 4` rows of R56 needs a SIB byte, and its own bytes are those read. -/
theorem takeMemForm_sib_ok {mod : BitVec 2} {bs rest : List Byte} {m : MemForm} (hmod : mod ≠ 3)
    (h : takeMemForm mod 4 bs = .ok (m, rest)) :
    m.wellFormed = true ∧ m.modBits = mod ∧ m.rmBits = 4 ∧ bs = m.tail ++ rest := by
  have htwo (h0 : mod ≠ 0) (h1 : mod ≠ 1) : 2 = mod := by clear h; revert mod; decide
  rw [takeMemForm, if_pos rfl] at h
  obtain ⟨b, bs, rfl, hk⟩ := takeByte_bind_ok h
  dsimp only at hk
  split at hk
  case isTrue h0 =>
    cases hk
    exact ⟨rfl, h0.symm, rfl, rfl⟩
  case isFalse h0 =>
    split at hk
    case isTrue h1 =>
      obtain ⟨d, bs, rfl, hk'⟩ := takeByte_bind_ok hk
      cases hk'
      exact ⟨rfl, h1.symm, rfl, rfl⟩
    case isFalse h1 =>
      obtain ⟨d, bs, rfl, hk'⟩ := takeWord_bind_ok hk
      cases hk'
      exact ⟨rfl, htwo h0 h1, rfl, rfl⟩

/-- The memory form read from some bytes is well formed, has the two fields it was read with, and its own bytes are
those read. -/
theorem takeMemForm_ok {mod : BitVec 2} {rm : BitVec 3} {bs rest : List Byte} {m : MemForm} (hmod : mod ≠ 3)
    (h : takeMemForm mod rm bs = .ok (m, rest)) :
    m.wellFormed = true ∧ m.modBits = mod ∧ m.rmBits = rm ∧ bs = m.tail ++ rest := by
  have htwo (h0 : mod ≠ 0) (h1 : mod ≠ 1) : 2 = mod := by clear h; revert mod; decide
  obtain ⟨r, rfl⟩ : ∃ r : Reg, r.bits = rm := ⟨.ofBits rm, Reg.bits_ofBits rm⟩
  by_cases h4 : r.bits = 4
  · rw [h4] at h ⊢
    exact takeMemForm_sib_ok hmod h
  rw [takeMemForm, if_neg h4, Reg.ofBits_bits] at h
  split at h
  case isTrue h0 =>
    split at h
    case isTrue h5 =>
      obtain ⟨d, bs, rfl, hk⟩ := takeWord_bind_ok h
      cases hk
      exact ⟨rfl, h0.symm, h5.symm, rfl⟩
    case isFalse h5 =>
      cases h
      exact ⟨(MemForm.wellFormed_ind_iff r).mpr ⟨h4, h5⟩, h0.symm, rfl, rfl⟩
  case isFalse h0 =>
    split at h
    case isTrue h1 =>
      obtain ⟨d, bs, rfl, hk⟩ := takeByte_bind_ok h
      cases hk
      exact ⟨(MemForm.wellFormed_disp8_iff r d).mpr h4, h1.symm, rfl, rfl⟩
    case isFalse h1 =>
      obtain ⟨d, bs, rfl, hk⟩ := takeWord_bind_ok h
      cases hk
      exact ⟨(MemForm.wellFormed_disp32_iff r d).mpr h4, htwo h0 h1, rfl, rfl⟩

/-- The operand read from some bytes is well formed, and its encoding is those bytes. -/
theorem takeModRM_ok {reg : BitVec 3} {rm : RM} {bs rest : List Byte} (h : takeModRM bs = .ok ((reg, rm), rest)) :
    rm.wellFormed = true ∧ bs = rm.encode reg ++ rest := by
  obtain ⟨b, bs, rfl, hk⟩ := takeByte_bind_ok h
  dsimp only at hk
  have hb : modRMByte (modField b) (regField b) (rmField b) = b := modRMByte_fields b
  split at hk
  case isTrue h3 =>
    cases hk
    refine ⟨rfl, ?_⟩
    rw [RM.encode, Reg.bits_ofBits, ← h3, hb]
    rfl
  case isFalse h3 =>
    obtain ⟨⟨m, bs'⟩, htake, hk'⟩ := (bind_ok_iff _ _ _).mp hk
    cases hk'
    obtain ⟨hwf, hmod, hrm, rfl⟩ := takeMemForm_ok h3 htake
    refine ⟨hwf, ?_⟩
    rw [RM.encode, hmod, hrm, hb]
    rfl

theorem takeModRM_bind_ok {α : Type} {bs : List Byte} {k : (BitVec 3 × RM) × List Byte → Except DecodeError α}
    {a : α} (h : (takeModRM bs >>= k) = .ok a) :
    ∃ reg rm bs', rm.wellFormed = true ∧ bs = rm.encode reg ++ bs' ∧ k ((reg, rm), bs') = .ok a := by
  obtain ⟨⟨⟨reg, rm⟩, bs'⟩, htake, hk⟩ := (bind_ok_iff _ _ _).mp h
  obtain ⟨hrm, hbs⟩ := takeModRM_ok htake
  exact ⟨reg, rm, bs', hrm, hbs, hk⟩

theorem decodeModRM_ok {mk : Reg → RM → Instr} {bs rest : List Byte} {i : Instr}
    (h : decodeModRM mk bs = .ok (i, rest)) :
    ∃ r rm, rm.wellFormed = true ∧ bs = rm.encode r.bits ++ rest ∧ i = mk r rm := by
  obtain ⟨reg, rm, bs, hrm, rfl, hk⟩ := takeModRM_bind_ok h
  cases hk
  exact ⟨.ofBits reg, rm, hrm, by rw [Reg.bits_ofBits], rfl⟩

theorem decodeByte_ok {mk : Byte → Instr} {bs rest : List Byte} {i : Instr} (h : decodeByte mk bs = .ok (i, rest)) :
    ∃ b, bs = b :: rest ∧ i = mk b := by
  obtain ⟨b, bs, rfl, hk⟩ := takeByte_bind_ok h
  cases hk
  exact ⟨b, rfl, rfl⟩

theorem decodeWord_ok {mk : Word → Instr} {bs rest : List Byte} {i : Instr} (h : decodeWord mk bs = .ok (i, rest)) :
    ∃ v, bs = wordBytes v ++ rest ∧ i = mk v := by
  obtain ⟨v, bs, rfl, hk⟩ := takeWord_bind_ok h
  cases hk
  exact ⟨v, rfl, rfl⟩

/-- What a supported sub-opcode of `83` selects has the operand and the bytes of the group (R64). -/
theorem encode_group83 {sub : BitVec 3} {mk : RM → Byte → Instr} (h : group83 sub = some mk) (rm : RM) (b : Byte) :
    encode (mk rm b) = 0x83 :: rm.encode sub ++ [b] := by
  obtain ⟨n, rfl⟩ : ∃ n : Fin 8, BitVec.ofFin n = sub := ⟨sub.toFin, rfl⟩
  fin_cases n <;> cases h <;> rfl

theorem Instr.wellFormed_of_rm? {i : Instr} {rm : RM} (h : i.rm? = some rm) (hrm : rm.wellFormed = true) :
    i.wellFormed = true := by
  rw [Instr.wellFormed, h]
  exact hrm

theorem decodeGroup83_ok {bs rest : List Byte} {i : Instr} (h : decodeGroup83 0x83 bs = .ok (i, rest)) :
    i.wellFormed = true ∧ 0x83 :: bs = encode i ++ rest := by
  obtain ⟨sub, rm, bs, hrm, rfl, hk⟩ := takeModRM_bind_ok h
  dsimp only at hk
  split at hk
  case h_1 => cases hk
  case h_2 mk hmk =>
    obtain ⟨b, bs, rfl, hk'⟩ := takeByte_bind_ok hk
    cases hk'
    refine ⟨Instr.wellFormed_of_rm? (rm?_of_group83 hmk rm b) hrm, ?_⟩
    rw [encode_group83 hmk, List.append_assoc]
    rfl

theorem decodeGroupFF_ok {bs rest : List Byte} {i : Instr} (h : decodeGroupFF 0xFF bs = .ok (i, rest)) :
    i.wellFormed = true ∧ 0xFF :: bs = encode i ++ rest := by
  obtain ⟨sub, rm, bs, hrm, rfl, hk⟩ := takeModRM_bind_ok h
  dsimp only at hk
  split at hk
  case isTrue h0 =>
    cases hk
    exact ⟨hrm, by rw [h0]; rfl⟩
  case isFalse => cases hk

theorem decodeC7_ok {bs rest : List Byte} {i : Instr} (h : decodeC7 bs = .ok (i, rest)) :
    i.wellFormed = true ∧ 0xC7 :: bs = encode i ++ rest := by
  obtain ⟨ignored, rm, bs, hrm, rfl, hk⟩ := takeModRM_bind_ok h
  obtain ⟨v, bs, rfl, hk'⟩ := takeWord_bind_ok hk
  cases hk'
  exact ⟨hrm, by rw [encode, List.append_assoc]; rfl⟩

/-- What a handler reads after its opcode byte is well formed, and encoded by that byte and those read. -/
theorem decodeRest_ok {handler : Handler} {r : Reg} {bs rest : List Byte} {i : Instr}
    (h : decodeRest handler (handler.opcode r) bs = .ok (i, rest)) :
    i.wellFormed = true ∧ handler.opcode r :: bs = encode i ++ rest := by
  cases handler with
  | addRmR32 =>
    obtain ⟨r, rm, hrm, rfl, rfl⟩ := decodeModRM_ok (mk := fun reg rm => .addRmR32 rm reg) h
    exact ⟨hrm, rfl⟩
  | movRmR32 =>
    obtain ⟨r, rm, hrm, rfl, rfl⟩ := decodeModRM_ok (mk := fun reg rm => .movRmR32 rm reg) h
    exact ⟨hrm, rfl⟩
  | cmpR32Rm | movR32Rm =>
    obtain ⟨r, rm, hrm, rfl, rfl⟩ := decodeModRM_ok h
    exact ⟨hrm, rfl⟩
  | pushImm8 | jo | jno | jc | jnc | jz | jnz | js | jns | jl | jle | jmpRel8 =>
    obtain ⟨b, rfl, rfl⟩ := decodeByte_ok h
    exact ⟨rfl, rfl⟩
  | pushImm32 | callRel32 | jmpRel32 =>
    obtain ⟨v, rfl, rfl⟩ := decodeWord_ok h
    exact ⟨rfl, rfl⟩
  | movR32Imm32 =>
    obtain ⟨v, rfl, rfl⟩ := decodeWord_ok h
    exact ⟨rfl, by rw [Handler.opcode, ofBits_rmField_plusReg rfl]; rfl⟩
  | pushR32 | popR32 =>
    cases h
    exact ⟨rfl, by rw [Handler.opcode, ofBits_rmField_plusReg rfl]; rfl⟩
  | ret | leave =>
    cases h
    exact ⟨rfl, rfl⟩
  | group83 => exact decodeGroup83_ok h
  | groupFF => exact decodeGroupFF_ok h
  | movRmImm32 => exact decodeC7_ok h

/-- Settles O12: the opcode byte is its handler's, and what the handler reads is well formed and encoded by the bytes
it was read from. -/
theorem encodeOfDecode : Obligations.EncodeOfDecode := by
  intro bs rest i h
  obtain ⟨op, bs, rfl, -⟩ := takeByte_bind_ok h
  cases hop : dispatch op with
  | none =>
    rw [decode_of_dispatch_none hop] at h
    cases h
  | some handler =>
    rw [decode_of_dispatch_some hop] at h
    rw [opcode_of_dispatch hop] at h ⊢
    exact decodeRest_ok h

/-! ### The decoder's rejections (R67, R68) -/

theorem takeByte_error {bs : List Byte} {e : DecodeError} (h : takeByte bs = .error e) : e = .truncated := by
  cases bs <;> cases h
  rfl

theorem takeWord_error {bs : List Byte} {e : DecodeError} (h : takeWord bs = .error e) : e = .truncated := by
  unfold takeWord at h
  split at h <;> cases h
  rfl

theorem takeMemForm_error {mod : BitVec 2} {rm : BitVec 3} {bs : List Byte} {e : DecodeError}
    (h : takeMemForm mod rm bs = .error e) : e = .truncated := by
  unfold takeMemForm at h
  split at h
  case isTrue =>
    refine bind_error_elim h takeByte_error fun _ h => ?_
    dsimp only at h
    split at h
    case isTrue => cases h
    case isFalse =>
      split at h
      case isTrue => exact bind_error_elim h takeByte_error fun _ h => nomatch h
      case isFalse => exact bind_error_elim h takeWord_error fun _ h => nomatch h
  case isFalse =>
    split at h
    case isTrue =>
      split at h
      case isTrue => exact bind_error_elim h takeWord_error fun _ h => nomatch h
      case isFalse => cases h
    case isFalse =>
      split at h
      case isTrue => exact bind_error_elim h takeByte_error fun _ h => nomatch h
      case isFalse => exact bind_error_elim h takeWord_error fun _ h => nomatch h

theorem takeModRM_error {bs : List Byte} {e : DecodeError} (h : takeModRM bs = .error e) : e = .truncated := by
  refine bind_error_elim h takeByte_error fun _ h => ?_
  dsimp only at h
  split at h
  case isTrue => cases h
  case isFalse => exact bind_error_elim h takeMemForm_error fun _ h => nomatch h

/-- Once the opcode byte has a handler, the bytes after it are rejected for being too few or for their sub-opcode,
never as an empty entry. -/
theorem decodeRest_ne_emptyEntry (handler : Handler) (op op' : Byte) (bs : List Byte) :
    decodeRest handler op bs ≠ .error (.emptyEntry op') := by
  have htrunc : DecodeError.emptyEntry op' ≠ .truncated := nofun
  intro h
  cases handler with
  | addRmR32 | cmpR32Rm | movRmR32 | movR32Rm =>
    exact bind_error_elim h (fun h => htrunc (takeModRM_error h)) fun _ h => nomatch h
  | pushImm8 | jo | jno | jc | jnc | jz | jnz | js | jns | jl | jle | jmpRel8 =>
    exact bind_error_elim h (fun h => htrunc (takeByte_error h)) fun _ h => nomatch h
  | pushImm32 | callRel32 | jmpRel32 | movR32Imm32 =>
    exact bind_error_elim h (fun h => htrunc (takeWord_error h)) fun _ h => nomatch h
  | pushR32 | popR32 | ret | leave => cases h
  | group83 =>
    refine bind_error_elim h (fun h => htrunc (takeModRM_error h)) fun _ h => ?_
    dsimp only at h
    split at h
    case h_1 => cases h
    case h_2 => exact bind_error_elim h (fun h => htrunc (takeByte_error h)) fun _ h => nomatch h
  | groupFF =>
    refine bind_error_elim h (fun h => htrunc (takeModRM_error h)) fun _ h => ?_
    dsimp only at h
    split at h <;> cases h
  | movRmImm32 =>
    exact bind_error_elim h (fun h => htrunc (takeModRM_error h)) fun _ h =>
      bind_error_elim h (fun h => htrunc (takeWord_error h)) fun _ h => nomatch h

/-- Settles O15: only the dispatch table rejects a byte as an empty entry, and its empty entries are the bytes outside
the list. -/
theorem emptyEntriesAreTheOtherBytes : Obligations.EmptyEntriesAreTheOtherBytes := by
  refine ⟨rfl, fun op rest => ?_⟩
  rw [← dispatch_eq_none_iff]
  refine ⟨fun h => ?_, fun h => decode_of_dispatch_none h rest⟩
  cases hop : dispatch op with
  | none => rfl
  | some handler =>
    rw [decode_of_dispatch_some hop] at h
    exact absurd h (decodeRest_ne_emptyEntry handler op op rest)

/-- Settles O13: each word is the encoding of its instruction, and so decodes to it. -/
theorem specWordsDecode : Obligations.SpecWordsDecode :=
  ⟨decodeOfEncode (.addRmR32 (.reg .eax) .ecx) [] rfl, decodeOfEncode (.subRmImm8 (.reg .ebx) 3) [] rfl,
    decodeOfEncode (.movR32Rm .eax (.mem (.disp8 .ebp 0xFC))) [] rfl,
    decodeOfEncode (.movRmImm32 0 (.mem (.abs 0x8000)) 0xDEADBEEF) [] rfl, decodeOfEncode (.popR32 .eax) [] rfl,
    decodeOfEncode (.callRel32 5) [] rfl, decodeOfEncode (.jnz 0xF9) [] rfl,
    decodeOfEncode (.jmpRel32 0xFFFF83EA) [] rfl⟩

end Sys2Proof
end

section
namespace Sys2Proof.Machine
open Sys2Proof.Claims

/-! ### What an instruction may change, whatever it does to `pc` (R18, R27, R58) -/

/-- From `s` to `t` only registers of the list change, the flags only where they may and by a subtraction (R80), and
memory only by a store of the word at the address, where there is one. Nothing is said of `pc` and the run status. -/
structure Changes (s t : State) (regs : List Reg) (flags : Bool) (addr word : Option Word) : Prop where
  regs_kept : ∀ r, r ∉ regs → t.x.get r = s.x.get r
  eflags : t.eflags = s.eflags ∨ flags = true ∧ ∃ v1 v2, t.eflags = subFlags s.eflags v1 v2
  mem : addr = none ∧ t.mem = s.mem ∨
    ∃ a v, addr = some a ∧ word = some v ∧ s.inBounds4 a = true ∧ t.mem = s.mem.storeWord a v
  launch : t.launch = s.launch

section
variable {s t : State} {regs : List Reg} {flags : Bool} {addr word : Option Word}

theorem Changes.refl (s : State) (word : Option Word) : Changes s s [] false none word :=
  ⟨fun _ _ => rfl, .inl rfl, .inl ⟨rfl, rfl⟩, rfl⟩

theorem Changes.jump (h : Changes s t regs flags addr word) (v : Word) : Changes s (t.jump v) regs flags addr word :=
  ⟨h.regs_kept, h.eflags, h.mem, h.launch⟩

theorem Changes.setReg (h : Changes s t regs flags addr word) (r : Reg) (v : Word) :
    Changes s (t.setReg r v) (r :: regs) flags addr word := by
  refine ⟨fun q hq => ?_, h.eflags, h.mem, h.launch⟩
  exact (Regs.get_set_ne t.x v (List.ne_of_not_mem_cons hq)).trans (h.regs_kept q (List.not_mem_of_not_mem_cons hq))

theorem Changes.updateFlagsSub (h : Changes s t regs false addr word) (v1 v2 : Word) :
    Changes s (t.updateFlagsSub v1 v2) regs true addr word := by
  have hkept : t.eflags = s.eflags := h.eflags.resolve_right fun hf => Bool.false_ne_true hf.1
  refine ⟨h.regs_kept, .inr ⟨rfl, v1, v2, ?_⟩, h.mem, h.launch⟩
  rw [State.updateFlagsSub_eflags, hkept]

theorem Changes.pop32 {p : Word × State} (h : Changes s t regs flags addr word) (hpop : t.pop32 = .ok p) :
    Changes s p.2 (.esp :: regs) flags addr word := by
  obtain ⟨-, rfl⟩ := (pop32_ok t p).mp hpop
  exact h.setReg _ _

theorem Changes.mono {regs' : List Reg} (h : Changes s t regs flags addr word) (hsub : regs ⊆ regs') :
    Changes s t regs' flags addr word :=
  ⟨fun r hr => h.regs_kept r fun hmem => hr (hsub hmem), h.eflags, h.mem, h.launch⟩

theorem Changes.push32 {v : Word} (hpush : s.push32 v = .ok t) :
    Changes s t [.esp] false (some (s.reg .esp - 4)) (some v) := by
  obtain ⟨hin, rfl⟩ := (push32_ok s v t).mp hpush
  exact ⟨fun r hr => Regs.get_set_ne s.x _ (List.ne_of_not_mem_cons hr), .inl rfl,
    .inr ⟨_, v, rfl, rfl, hin, rfl⟩, rfl⟩

theorem Changes.writeRM32 {rm : RM} {v : Word} (hwrite : s.writeRM32 rm v = .ok t) (hword : word = some v) :
    Changes s t (rmWritten rm) false (s.rmStore rm) word := by
  rcases (writeRM32_ok s rm v t).mp hwrite with ⟨r, rfl, rfl⟩ | ⟨m, a, rfl, hea, hin, rfl⟩
  · exact (Changes.refl s word).setReg r v
  · have haddr : s.rmStore (.mem m) = some a := by rw [State.rmStore, hea]; rfl
    exact ⟨fun _ _ => rfl, .inl rfl, .inr ⟨a, v, haddr, hword, hin, rfl⟩, rfl⟩

end

/-! ### What completing says about the operand and the code (R39, R55) -/

theorem operand_of_readRM32 {s : State} {rm : RM} {v : Word} (h : s.readRM32 rm = .ok v) : operand s rm = some v := by
  rcases (readRM32_ok s rm v).mp h with ⟨r, rfl, rfl⟩ | ⟨m, a, rfl, hea, hin, rfl⟩
  · rfl
  · simp only [operand, hea, if_pos hin]

/-- An access to an operand that does not raise has an effective address if the operand is in memory. -/
theorem ea_of_bind {s : State} {m : MemForm} {α : Type} {k : Word → Except Raise α} {b : α}
    (h : (s.ea m >>= k) = .ok b) : ∃ a, s.ea m = .ok a := by
  obtain ⟨a, hea, -⟩ := (bind_ok_iff _ _ _).mp h
  exact ⟨a, hea⟩

theorem writeRM32_pc {s t : State} {rm : RM} {v : Word} (h : s.writeRM32 rm v = .ok t) : t.pc = s.pc := by
  rcases (writeRM32_ok s rm v t).mp h with ⟨r, -, rfl⟩ | ⟨m, a, -, -, -, rfl⟩ <;> rfl

theorem push32_pc {s t : State} {v : Word} (h : s.push32 v = .ok t) : t.pc = s.pc := by
  obtain ⟨-, rfl⟩ := (push32_ok s v t).mp h
  rfl

theorem pop32_pc {s : State} {p : Word × State} (h : s.pop32 = .ok p) : p.2.pc = s.pc := by
  obtain ⟨-, rfl⟩ := (pop32_ok s p).mp h
  rfl

theorem codeAt_of_fetchU8 {s : State} {k : Nat} {b : Byte} (h : s.fetchU8 k = .ok b) : s.codeAt k 1 :=
  (codeAt_one s k).mpr ((fetchU8_ok s k b).mp h).1

theorem codeAt_of_fetch32 {s : State} {k : Nat} {v : Word} (h : s.fetch32 k = .ok v) : s.codeAt k 4 :=
  (inBounds4_pc s k).mp ((fetch32_ok s k v).mp h).1

theorem codeAt_zero (s : State) (k : Nat) : s.codeAt k 0 := nofun

section
variable {s : State} {rm : RM} (hmodRM : s.fetchModRM rm = .ok ())
include hmodRM

theorem codeAt_of_fetchModRM : s.codeAt 1 rm.length := (fetchModRM_ok s rm).mp hmodRM

theorem codeAt_of_modRM_imm8 {b : Byte} (himm : s.fetchU8 (1 + rm.length) = .ok b) : s.codeAt 1 (rm.length + 1) :=
  (codeAt_add s _ _ _).mpr ⟨codeAt_of_fetchModRM hmodRM, codeAt_of_fetchU8 himm⟩

theorem codeAt_of_modRM_imm32 {v : Word} (himm : s.fetch32 (1 + rm.length) = .ok v) : s.codeAt 1 (rm.length + 4) :=
  (codeAt_add s _ _ _).mpr ⟨codeAt_of_fetchModRM hmodRM, codeAt_of_fetch32 himm⟩

end

/-! ### Completed instructions -/

/-- The changes the tables of R18, R27, R44 and R58 allow an instruction. -/
abbrev AllowedChanges (i : Instr) (s t : State) : Prop :=
  Changes s t (writtenRegs i) (writesFlags i) (storeAddr i s) (storedWord i s)

/-- What holds of every instruction that completes, going from `s` to `t`: its bytes after the opcode are in memory, its
memory operand has an address, `pc` is after it unless it is a transfer, and it changes what its tables allow. -/
structure Completed (i : Instr) (s t : State) : Prop where
  code : s.codeAt 1 (i.length - 1)
  address : ∀ m, i.rm? = some (.mem m) → ∃ a, s.ea m = .ok a
  pc : transfers i = false → t.pc = after s i.length
  changes : AllowedChanges i s t

/-- Where the pseudocode does not raise, its result meets `p`. -/
def Ensures (r : Except Raise State) (p : State → Prop) : Prop := ∀ t, r = .ok t → p t

theorem Ensures.ok {t : State} {p : State → Prop} (h : p t) : Ensures (.ok t) p := by
  rintro _ ⟨⟩
  exact h

theorem Ensures.bind {α : Type} {x : Except Raise α} {f : α → Except Raise State} {p : State → Prop}
    (h : ∀ a, x = .ok a → Ensures (f a) p) : Ensures (x >>= f) p := by
  intro t ht
  obtain ⟨a, hx, hf⟩ := (bind_ok_iff x f t).mp ht
  exact h a hx t hf

section
variable {i : Instr} {rm : RM} {s t : State} {n : Nat}

theorem Completed.of_codeAt (hlen : i.length = 1 + n) (hcode : s.codeAt 1 n)
    (haddr : ∀ m, i.rm? = some (.mem m) → ∃ a, s.ea m = .ok a)
    (hpc : transfers i = false → t.pc = after s i.length) (hchanges : AllowedChanges i s t) : Completed i s t :=
  ⟨by rwa [hlen, Nat.add_sub_cancel_left], haddr, hpc, hchanges⟩

/-- The last lines of an instruction that writes its operand. -/
theorem Ensures.writeRM32 {w : Word} {f : State → State} (hrm : i.rm? = some rm) (hlen : i.length = 1 + n)
    (hcode : s.codeAt 1 n) (hpc : ∀ t, (f t).pc = t.pc + BitVec.ofNat 32 i.length)
    (hchanges : ∀ t, s.writeRM32 rm w = .ok t → AllowedChanges i s (f t)) :
    Ensures (s.writeRM32 rm w >>= fun t => .ok (f t)) (Completed i s) := by
  refine .bind fun t hw => .ok (.of_codeAt hlen hcode (fun m hm => ?_) (fun _ => ?_) (hchanges t hw))
  · obtain rfl : rm = .mem m := Option.some.inj (hrm.symm.trans hm)
    exact ea_of_bind hw
  · rw [hpc, writeRM32_pc hw, after]

/-- The last line of an instruction that reads its operand and does not write it. -/
theorem Ensures.readRM32 {v : Word} (hrm : i.rm? = some rm) (hread : s.readRM32 rm = .ok v)
    (hlen : i.length = 1 + n) (hcode : s.codeAt 1 n) (hpc : t.pc = after s i.length)
    (hchanges : AllowedChanges i s t) :
    Ensures (.ok t) (Completed i s) := by
  refine .ok (.of_codeAt hlen hcode (fun m hm => ?_) (fun _ => hpc) hchanges)
  obtain rfl : rm = .mem m := Option.some.inj (hrm.symm.trans hm)
  exact ea_of_bind hread

/-- The last lines of an instruction that pushes a word. -/
theorem Ensures.push32 {w : Word} {f : State → State} (hrm : i.rm? = none) (hlen : i.length = 1 + n)
    (hcode : s.codeAt 1 n) (hpc : transfers i = false → ∀ t, (f t).pc = t.pc + BitVec.ofNat 32 i.length)
    (hchanges : ∀ t, s.push32 w = .ok t → AllowedChanges i s (f t)) :
    Ensures (s.push32 w >>= fun t => .ok (f t)) (Completed i s) := by
  refine .bind fun t hp => .ok (.of_codeAt hlen hcode (by simp [hrm]) (fun hi => ?_) (hchanges t hp))
  rw [hpc hi, push32_pc hp, after]

/-- The last line of an instruction without an `r/m32` operand. -/
theorem Ensures.done (hrm : i.rm? = none) (hlen : i.length = 1 + n) (hcode : s.codeAt 1 n)
    (hpc : transfers i = false → t.pc = after s i.length)
    (hchanges : AllowedChanges i s t) :
    Ensures (.ok t) (Completed i s) :=
  .ok (.of_codeAt hlen hcode (by simp [hrm]) hpc hchanges)

end

/-- A conditional jump, taken or not, changes nothing but `pc`. -/
theorem jumpIf_ensures (taken : Bool) (rel : Byte) (s : State) {i : Instr} (hlen : i.length = 2) (hrm : i.rm? = none)
    (hi : transfers i = true) (hchanges : ∀ v, AllowedChanges i s (s.jump v)) :
    ∃ r, jumpIf taken rel s = attempt s r ∧ Ensures r (Completed i s) :=
  ⟨_, jumpIf_eq taken rel s, .bind fun _ hf => .done hrm hlen (codeAt_of_fetchU8 hf) (by simp [hi]) (hchanges _)⟩

/-- The length of an instruction with `k` immediate bytes after `l` ModRM bytes (R69). -/
theorem length_of_imm (k l : Nat) : k + 1 + l = 1 + (l + k) := by omega

/-- Every instruction is one attempt from the state before it, and where it does not raise it has completed. -/
theorem exec_ensures (i : Instr) (s : State) : ∃ r, exec i s = attempt s r ∧ Ensures r (Completed i s) := by
  cases i with
  | addRmR32 | incRm =>
    exact ⟨_, rfl, .bind fun _ hm => .bind fun v hr => .writeRM32 rfl rfl (codeAt_of_fetchModRM hm) (fun _ => rfl)
      fun t hw => (Changes.writeRM32 hw (congrArg (Option.map _) (operand_of_readRM32 hr))).jump _⟩
  | addRmImm8 rm imm =>
    exact ⟨_, rfl, .bind fun _ hm => .bind fun v hr => .bind fun _ hb => .writeRM32 rfl (length_of_imm 1 rm.length)
      (codeAt_of_modRM_imm8 hm hb) (fun _ => rfl)
      fun t hw => (Changes.writeRM32 hw (congrArg (Option.map _) (operand_of_readRM32 hr))).jump _⟩
  | subRmImm8 rm imm =>
    exact ⟨_, rfl, .bind fun _ hm => .bind fun v hr => .bind fun _ hb => .writeRM32 rfl (length_of_imm 1 rm.length)
      (codeAt_of_modRM_imm8 hm hb) (fun _ => rfl) fun t hw =>
        ((Changes.writeRM32 hw (congrArg (Option.map _) (operand_of_readRM32 hr))).updateFlagsSub _ _).jump _⟩
  | movRmR32 =>
    exact ⟨_, rfl, .bind fun _ hm => .writeRM32 rfl rfl (codeAt_of_fetchModRM hm) (fun _ => rfl)
      fun t hw => (Changes.writeRM32 hw rfl).jump _⟩
  | movRmImm32 ignored rm imm =>
    exact ⟨_, rfl, .bind fun _ hm => .bind fun _ hv => .writeRM32 rfl (length_of_imm 4 rm.length)
      (codeAt_of_modRM_imm32 hm hv) (fun _ => rfl) fun t hw => (Changes.writeRM32 hw rfl).jump _⟩
  | cmpRmImm8 rm imm =>
    exact ⟨_, rfl, .bind fun _ hm => .bind fun v hr => .bind fun _ hb => .readRM32 rfl hr (length_of_imm 1 rm.length)
      (codeAt_of_modRM_imm8 hm hb) rfl (((Changes.refl s _).updateFlagsSub _ _).jump _)⟩
  | cmpR32Rm =>
    exact ⟨_, rfl, .bind fun _ hm => .bind fun v hr => .readRM32 rfl hr rfl (codeAt_of_fetchModRM hm) rfl
      (((Changes.refl s _).updateFlagsSub _ _).jump _)⟩
  | movR32Rm =>
    exact ⟨_, rfl, .bind fun _ hm => .bind fun v hr => .readRM32 rfl hr rfl (codeAt_of_fetchModRM hm) rfl
      (((Changes.refl s _).setReg _ _).jump _)⟩
  | movR32Imm32 =>
    exact ⟨_, rfl, .bind fun _ _ => .bind fun _ hv => .done rfl rfl (codeAt_of_fetch32 hv) (fun _ => rfl)
      (((Changes.refl s _).setReg _ _).jump _)⟩
  | pushR32 =>
    exact ⟨_, rfl, .bind fun _ _ => .push32 rfl rfl (codeAt_zero s 1) (fun _ _ => rfl)
      fun t hp => (Changes.push32 hp).jump _⟩
  | pushImm32 =>
    exact ⟨_, rfl, .bind fun _ hv => .push32 rfl rfl (codeAt_of_fetch32 hv) (fun _ _ => rfl)
      fun t hp => (Changes.push32 hp).jump _⟩
  | pushImm8 imm =>
    refine ⟨_, rfl, .bind fun _ hb => .push32 rfl rfl (codeAt_of_fetchU8 hb) (fun _ _ => rfl)
      fun t hp => ?_⟩
    rw [extendPush_eq] at hp
    exact (Changes.push32 hp).jump _
  | callRel32 =>
    exact ⟨_, rfl, .bind fun _ hv => .push32 rfl rfl (codeAt_of_fetch32 hv) nofun
      fun t hp => (Changes.push32 hp).jump _⟩
  | popR32 r =>
    exact ⟨_, rfl, .bind fun _ _ => .bind fun (v, t) hp => .done rfl rfl (codeAt_zero s 1)
      (fun _ => congrArg (· + BitVec.ofNat 32 1) (pop32_pc hp)) ((((Changes.refl s _).pop32 hp).setReg r v).jump _)⟩
  | ret =>
    exact ⟨_, rfl, .bind fun (v, t) hp => .done rfl rfl (codeAt_zero s 1) nofun
      (((Changes.refl s _).pop32 hp).jump v)⟩
  | leave =>
    refine ⟨_, rfl, .bind fun (v, t) hp => ?_⟩
    have hchanges := (((Changes.refl s none).setReg .esp _).pop32 hp).setReg .ebp v
    exact .done rfl rfl (codeAt_zero s 1) (fun _ => congrArg (· + BitVec.ofNat 32 1) (pop32_pc hp))
      ((hchanges.mono (by decide)).jump _)
  | jmpRel8 =>
    exact ⟨_, rfl, .bind fun _ hb => .done rfl rfl (codeAt_of_fetchU8 hb) nofun ((Changes.refl s _).jump _)⟩
  | jmpRel32 =>
    exact ⟨_, rfl, .bind fun _ hv => .done rfl rfl (codeAt_of_fetch32 hv) nofun ((Changes.refl s _).jump _)⟩
  | jo rel | jno rel | jc rel | jnc rel | jz rel | jnz rel | js rel | jns rel | jl rel | jle rel =>
    exact jumpIf_ensures _ rel s rfl rfl rfl fun v => (Changes.refl s _).jump v

/-- The two endings of an instruction: its precise stop, or its completion. -/
theorem exec_endings (i : Instr) (s : State) :
    (∃ e, exec i s = .next (s.takeStop e)) ∨ ∃ t, exec i s = .next t ∧ Completed i s t := by
  obtain ⟨r, hexec, hr⟩ := exec_ensures i s
  cases r with
  | ok t => exact .inr ⟨t, hexec, hr t rfl⟩
  | error e => exact .inl ⟨e, hexec⟩

theorem exec_next {i : Instr} {s t : State} (h : exec i s = .next t) :
    (∃ e, t = s.takeStop e) ∨ Completed i s t := by
  rcases exec_endings i s with ⟨e, hexec⟩ | ⟨u, hexec, hdone⟩
  · exact .inl ⟨e, Host.Outcome.next.inj (h.symm.trans hexec)⟩
  · obtain rfl : t = u := Host.Outcome.next.inj (h.symm.trans hexec)
    exact .inr hdone

theorem completed_of_running {i : Instr} {s t : State} (h : exec i s = .next t) (hrun : t.status = .running) :
    Completed i s t := by
  rcases exec_next h with ⟨e, rfl⟩ | hdone
  · cases hrun
  · exact hdone

/-! ### Lengths and code bytes (R50, R69) -/

theorem encodedLength (i : Instr) : Laws.EncodedLength.Statement i := by
  cases i
  exacts [Laws.EncodedLength.addRmR32 _ _, Laws.EncodedLength.cmpR32Rm _ _, Laws.EncodedLength.pushR32 _,
    Laws.EncodedLength.popR32 _, Laws.EncodedLength.pushImm32 _, Laws.EncodedLength.pushImm8 _,
    Laws.EncodedLength.jo _, Laws.EncodedLength.jno _, Laws.EncodedLength.jc _, Laws.EncodedLength.jnc _,
    Laws.EncodedLength.jz _, Laws.EncodedLength.jnz _, Laws.EncodedLength.js _, Laws.EncodedLength.jns _,
    Laws.EncodedLength.jl _, Laws.EncodedLength.jle _, Laws.EncodedLength.addRmImm8 _ _,
    Laws.EncodedLength.subRmImm8 _ _, Laws.EncodedLength.cmpRmImm8 _ _, Laws.EncodedLength.movRmR32 _ _,
    Laws.EncodedLength.movR32Rm _ _, Laws.EncodedLength.movR32Imm32 _ _, Laws.EncodedLength.ret,
    Laws.EncodedLength.movRmImm32 _ _ _, Laws.EncodedLength.leave, Laws.EncodedLength.callRel32 _,
    Laws.EncodedLength.jmpRel32 _, Laws.EncodedLength.jmpRel8 _, Laws.EncodedLength.incRm _]

/-- The opcode and the immediate take at most five bytes, beside the ModRM bytes. -/
theorem length_le (i : Instr) : i.length ≤ 5 + (i.rm?.map RM.length).getD 0 := by
  cases i <;> simp [Instr.length, Instr.rm?]

/-- Only the forms that need a SIB byte and a displacement word have more than five ModRM bytes. -/
theorem rm_length_le {rm : RM} {s : State} (h : ∀ m, rm = .mem m → ∃ a, s.ea m = .ok a) : rm.length ≤ 5 := by
  cases rm with
  | reg r => simp [RM.length]
  | mem m =>
    obtain ⟨a, hea⟩ := h m rfl
    cases m with
    | sibDisp32 sib d => cases hea
    | _ => simp [RM.length]

/-- Settles O17: an operand that needs a SIB byte has no address, so the longest form never completes. -/
theorem completedInstructionsAreAtMostTenBytes : Obligations.CompletedInstructionsAreAtMostTenBytes := by
  intro i s t _ hexec hrun
  obtain ⟨hlen, hpos, -⟩ := encodedLength i
  have haddr := (completed_of_running hexec hrun).address
  have hle := length_le i
  rw [hlen]
  refine ⟨hpos, ?_⟩
  cases hrm : i.rm? with
  | none =>
    simp only [hrm, Option.map_none, Option.getD_none] at hle
    omega
  | some rm =>
    have hrmLen : rm.length ≤ 5 := rm_length_le fun m hm => haddr m (hrm.trans (congrArg some hm))
    simp only [hrm, Option.map_some, Option.getD_some] at hle
    omega

theorem Raise.stop_fatal (e : Raise) (eip : Word) : (e.stop eip).fatal = true := by
  cases e <;> rfl

/-- Settles O26: an instruction that completes has fetched all its bytes. -/
theorem missingBytesStop : Obligations.MissingBytesStop := by
  intro i s hmissing
  rcases exec_endings i s with ⟨e, hexec⟩ | ⟨t, -, hdone⟩
  · exact ⟨e.stop s.pc, e.stop_fatal s.pc, hexec⟩
  · exact absurd hdone.code hmissing

/-- Settles O51: advancing `pc` past its bytes is part of completing. -/
theorem pcAdvancesByLength : Obligations.PcAdvancesByLength := by
  intro i s t _ hexec hrun hi
  rw [(encodedLength i).1]
  exact (completed_of_running hexec hrun).pc hi

/-! ### Frames (R18, R26, R27) -/

/-- Settles O52: a precise stop changes no register, and a completed instruction those of its row. -/
theorem registerFrame : Obligations.RegisterFrame := by
  intro i s t hexec r hr
  rcases exec_next hexec with ⟨e, rfl⟩ | hdone
  · rfl
  · exact hdone.changes.regs_kept r hr

theorem getLsbD_subFlags_of_ne (w v1 v2 : Word) {n : Nat} (h0 : n ≠ 0) (h6 : n ≠ 6) (h7 : n ≠ 7)
    (h11 : n ≠ 11) : (subFlags w v1 v2).getLsbD n = w.getLsbD n := by
  rw [getLsbD_subFlags, if_neg h11, if_neg h7, if_neg h6, if_neg h0]

/-- Settles O53: where an instruction changes the flags, it leaves those of a subtraction. -/
theorem flagFrame : Obligations.FlagFrame := by
  intro i s t hexec
  rcases exec_next hexec with ⟨e, rfl⟩ | hdone
  · exact ⟨fun _ => rfl, fun _ _ _ _ _ => rfl⟩
  · rcases hdone.changes.eflags with hkept | ⟨hwrites, v1, v2, hsub⟩
    · exact ⟨fun _ => hkept, fun _ _ _ _ _ => by rw [hkept]⟩
    · refine ⟨fun hno => absurd hwrites (by simp [hno]), fun n h0 h6 h7 h11 => ?_⟩
      rw [hsub, getLsbD_subFlags_of_ne _ _ _ h0 h6 h7 h11]

/-- Settles O54: the one change of memory an instruction makes is the store of a word at its store address. -/
theorem memoryFrame : Obligations.MemoryFrame := by
  intro i s t hexec n hn
  rcases exec_next hexec with ⟨e, rfl⟩ | hdone
  · rfl
  · rcases hdone.changes.mem with ⟨-, hkept⟩ | ⟨a, v, haddr, -, -, hstore⟩
    · rw [hkept]
    · rw [hstore, Memory.read_storeWord_of_ne _ _ _ (hn a haddr)]

/-! ### Stores and fetches (R49, R146) -/

theorem window_getElem? (s : State) {k : Nat} (hk : k < 11) :
    s.window[k]? = some (s.peek (s.pc + BitVec.ofNat 32 k)) := by
  simp [State.window, maxLength, hk]

/-- Settles O27: the stored bytes are in memory and at addresses that exist, so the decoder is shown them. -/
theorem storesAreSeenByFetch : Obligations.StoresAreSeenByFetch := by
  intro i a s t hexec hrun haddr
  have hchanges := (completed_of_running hexec hrun).changes
  rcases hchanges.mem with ⟨hnone, -⟩ | ⟨a', v, haddr', hword, hin, hstore⟩
  · cases haddr.symm.trans hnone
  · obtain rfl : a = a' := Option.some.inj (haddr.symm.trans haddr')
    refine ⟨v, hword, fun j hj k hk hpc => ?_⟩
    have hread : t.mem.read (a + BitVec.ofNat 32 j).toNat = byteOf v j := by
      rw [hstore, Memory.read_storeWord_offset _ _ _ j hj]
    have hexists : t.inBounds (a + BitVec.ofNat 32 j) = true := by
      rw [State.inBounds, hchanges.launch]
      exact (inBounds4_iff_forall s a).mp hin j hj
    refine ⟨?_, hread⟩
    rw [window_getElem? t hk, hpc, State.peek, if_pos hexists, hread]
    rfl

/-! ### The end test and the launch (R6, R72) -/

/-- The end test keeps the state, or ends the run of a core that runs with `pc = 0`. -/
theorem endTest_cases (u : State) :
    u.endTest = u ∨ u.pc = 0 ∧ u.status = .running ∧ u.endTest = u.halt .normalEnd := by
  cases hrun : u.status with
  | halted k => exact .inl (endTest_of_halted u k hrun)
  | running =>
    by_cases hpc : u.pc = 0
    · exact .inr ⟨hpc, rfl, endTest_zero u hpc hrun⟩
    · exact .inl (endTest_of_ne u hpc)

@[simp] theorem endTest_launch (u : State) : u.endTest.launch = u.launch := by
  rcases endTest_cases u with h | ⟨-, -, h⟩ <;> rw [h]
  rfl

/-- Settles O55: no ending of a step touches the launch. -/
theorem launchParametersAreFixed : Obligations.LaunchParametersAreFixed := by
  intro s t hstep
  rcases step_cases hstep with ⟨-, rfl⟩ | ⟨-, e, rfl⟩ | ⟨-, i, rest, u, -, hexec, hrun, rfl⟩
  · rfl
  · rfl
  · rw [endTest_launch]
    exact (completed_of_running hexec hrun).changes.launch

end Sys2Proof.Machine
end

section
namespace Sys2Proof.Machine
open Sys2Proof.Claims

/-! ### The invariant (R6, R26, R30, R34) -/

theorem inv_iff (s : State) :
    s.inv = true ↔ s.mem.wf = true ∧ s.mem.below s.launch.memSize = true ∧ s.eflags &&& ~~~flagMask = 0 ∧
      s.launch.legal = true ∧ s.stopAgrees = true := by
  simp only [State.inv, Bool.and_eq_true, beq_iff_eq, and_assoc]

theorem stopAgrees_of_running {s : State} (h : s.status = .running) : s.stopAgrees = true := by
  rw [State.stopAgrees, h]

/-- Halting keeps the invariant when the stop agrees with `pc`. -/
theorem inv_halt {s : State} (h : s.inv = true) {k : Stop} (hk : (s.halt k).stopAgrees = true) :
    (s.halt k).inv = true := by
  obtain ⟨hwf, hbelow, hflags, hlegal, -⟩ := (inv_iff s).mp h
  exact (inv_iff _).mpr ⟨hwf, hbelow, hflags, hlegal, hk⟩

theorem inv_takeStop {s : State} (h : s.inv = true) (e : Raise) : (s.takeStop e).inv = true := by
  refine inv_halt h ?_
  cases e <;> exact beq_self_eq_true s.pc

theorem getLsbD_flagMask : ∀ n < 32, flagMask.getLsbD n = decide (n = 0 ∨ n = 6 ∨ n = 7 ∨ n = 11) := by decide

/-- A subtraction leaves the unused bits of FLAGS as they were (R26, R80). -/
theorem subFlags_unused (w v1 v2 : Word) : subFlags w v1 v2 &&& ~~~flagMask = w &&& ~~~flagMask := by
  refine BitVec.eq_of_getLsbD_eq fun n hn => ?_
  rw [BitVec.getLsbD_and, BitVec.getLsbD_and, BitVec.getLsbD_not, getLsbD_flagMask n hn]
  by_cases hflag : n = 0 ∨ n = 6 ∨ n = 7 ∨ n = 11
  · simp [hflag]
  · obtain ⟨h0, h6, h7, h11⟩ : n ≠ 0 ∧ n ≠ 6 ∧ n ≠ 7 ∧ n ≠ 11 := by simpa [not_or] using hflag
    rw [getLsbD_subFlags_of_ne w v1 v2 h0 h6 h7 h11]

/-- An instruction that completes in a running state keeps the invariant. -/
theorem Completed.inv {i : Instr} {s t : State} (hdone : Completed i s t) (h : s.inv = true)
    (hrun : t.status = .running) : t.inv = true := by
  obtain ⟨hwf, hbelow, hflags, hlegal, -⟩ := (inv_iff s).mp h
  obtain ⟨-, heflags, hmem, hlaunch⟩ := hdone.changes
  have hmem' : t.mem.wf = true ∧ t.mem.below s.launch.memSize = true := by
    rcases hmem with ⟨-, hkept⟩ | ⟨a, v, -, -, hin, hstore⟩
    · rw [hkept]
      exact ⟨hwf, hbelow⟩
    · rw [hstore]
      exact ⟨Memory.wf_storeWord hwf a v, below_storeWord hbelow hin v⟩
  have hflags' : t.eflags &&& ~~~flagMask = 0 := by
    rcases heflags with hkept | ⟨-, v1, v2, hsub⟩
    · rw [hkept, hflags]
    · rw [hsub, subFlags_unused, hflags]
  rw [inv_iff, hlaunch]
  exact ⟨hmem'.1, hmem'.2, hflags', hlegal, stopAgrees_of_running hrun⟩

theorem inv_endTest {u : State} (h : u.inv = true) : u.endTest.inv = true := by
  rcases endTest_cases u with hkept | ⟨hpc, -, hend⟩
  · rw [hkept, h]
  · rw [hend]
    exact inv_halt h (beq_iff_eq.mpr hpc)

/-- Settles O56: each of the three endings of a step keeps the invariant. -/
theorem stepKeepsInvariant : Obligations.StepKeepsInvariant := by
  intro s t h hstep
  rcases step_cases hstep with ⟨hout, rfl⟩ | ⟨-, e, rfl⟩ | ⟨-, i, rest, u, -, hexec, hrun, rfl⟩
  · refine inv_halt h ?_
    have hout' : (s.halt (.eipOutOfRange s.pc)).inBounds s.pc = false := hout
    simp [State.stopAgrees, hout']
  · exact inv_takeStop h e
  · exact inv_endTest ((completed_of_running hexec hrun).inv h hrun)

/-! ### Loading an image (R138, R141) -/

theorem Memory.read_loadBytes_outside (m : Memory) (a : Nat) (bs : List Byte) {n : Nat}
    (h : n < a ∨ a + bs.length ≤ n) : (m.loadBytes a bs).read n = m.read n := by
  induction bs generalizing m a with
  | nil => rfl
  | cons b bs ih =>
    rw [List.length_cons] at h
    rw [Memory.loadBytes, ih _ _ (by omega), Memory.read_write, if_neg (by omega)]

theorem Memory.read_loadBytes_inside (m : Memory) (a : Nat) (bs : List Byte) {k : Nat} (hk : k < bs.length) :
    (m.loadBytes a bs).read (a + k) = bs[k] := by
  induction bs generalizing m a k with
  | nil => cases hk
  | cons b bs ih =>
    rw [Memory.loadBytes]
    cases k with
    | zero =>
      rw [Memory.read_loadBytes_outside _ _ _ (by omega), Memory.read_write, if_pos (by omega)]
      rfl
    | succ k =>
      rw [show a + (k + 1) = a + 1 + k by omega]
      exact ih _ _ (Nat.lt_of_succ_lt_succ hk)

theorem Memory.below_loadBytes {m : Memory} {n : Nat} (h : m.below n = true) (a : Nat) (bs : List Byte)
    (hfits : a + bs.length ≤ n) : (m.loadBytes a bs).below n = true := by
  induction bs generalizing m a with
  | nil => exact h
  | cons b bs ih =>
    rw [List.length_cons] at hfits
    exact ih (Memory.below_write h (by omega) b) (a + 1) (by omega)

theorem legal_iff (l : Launch) : l.legal = true ↔ 4 ≤ l.memSize ∧ l.memSize ≤ 2 ^ 32 := by
  simp [Launch.legal]

theorem fits_iff (l : Launch) (n : Nat) : l.fits n = true ↔ l.loadBase.toNat + n ≤ l.memSize := decide_eq_true_iff

/-- Construction succeeds where R6 and R141 allow it, with the state after reset and the image loaded. -/
theorem construct_eq_some (l : Launch) (image : List Byte) (s : State) :
    State.construct l image = some s ↔ (l.legal = true ∧ l.fits image.length = true) ∧
      s = { State.atLaunch l with mem := Memory.loadBytes [] l.loadBase.toNat image } := by
  rw [State.construct, Option.ite_none_right_eq_some, Bool.and_eq_true, Option.some_inj, eq_comm (a := s)]
  rfl

theorem construct_standard : State.construct Launch.standard [] = some State.reset :=
  (construct_eq_some _ _ _).mpr ⟨⟨by decide, by decide⟩, rfl⟩

theorem atLaunch_get (l : Launch) (r : Reg) : (State.atLaunch l).x.get r = if r = .esp then l.esp0 else 0 := by
  cases r <;> rfl

/-- Settles O1: what construction asks for and leaves, with the bytes of the image and the bytes around them. -/
theorem resetState : Obligations.ResetState := by
  refine ⟨fun l image => ?_, fun l image s hs => ?_, construct_standard, rfl, rfl, rfl⟩
  · rw [Option.isSome_iff_exists]
    simp only [construct_eq_some, legal_iff, fits_iff, exists_and_left, exists_eq, and_true, and_assoc]
  · obtain ⟨-, rfl⟩ := (construct_eq_some l image s).mp hs
    exact ⟨atLaunch_get l, rfl, rfl, rfl, rfl, fun k hk => Memory.read_loadBytes_inside [] _ image hk,
      fun a ha => Memory.read_loadBytes_outside [] _ image ha⟩

/-- Settles O2: loading keeps memory canonical and below its size where the image fits. -/
theorem resetMeetsInvariant : Obligations.ResetMeetsInvariant := by
  have hconstruct : ∀ l image s, State.construct l image = some s → s.inv = true := by
    intro l image s hs
    obtain ⟨⟨hlegal, hfits⟩, rfl⟩ := (construct_eq_some l image s).mp hs
    exact (inv_iff _).mpr ⟨Memory.wf_loadBytes rfl _ image,
      Memory.below_loadBytes rfl _ image ((fits_iff l _).mp hfits), BitVec.zero_and, hlegal, rfl⟩
  exact ⟨hconstruct _ _ _ construct_standard, hconstruct⟩

/-! ### Runs (R73, R124) -/

theorem inv_of_reaches {n : Nat} {s t : State} (h : s.inv = true) (hrun : reaches n s t) : t.inv = true := by
  induction n generalizing s with
  | zero =>
    obtain rfl := (reaches_zero s t).mp hrun
    exact h
  | succ n ih =>
    obtain ⟨u, hstep, hrest⟩ := (reaches_succ n s t).mp hrun
    exact ih (stepKeepsInvariant s u h hstep) hrest

/-- Settles O57: construction meets the invariant and every step of the run keeps it. -/
theorem reachedStatesMeetInvariant : Obligations.ReachedStatesMeetInvariant := by
  intro l image s t n hs hrun
  exact inv_of_reaches (resetMeetsInvariant.2 l image s hs) hrun

theorem step_of_halted {s : State} {k : Stop} (h : s.status = .halted k) : step s = .fault (.halted k) := by
  rw [step, h]

/-- After `n` steps that reach `t`, a run goes on as one from `t`. -/
theorem run_add {n : Nat} {s t : State} (h : reaches n s t) (m : Nat) :
    Host.Core.run Sys2Proof.core (n + m) s = Host.Core.run Sys2Proof.core m t := by
  induction n generalizing s with
  | zero =>
    obtain rfl := (reaches_zero s t).mp h
    rw [Nat.zero_add]
  | succ n ih =>
    obtain ⟨u, hstep, hrest⟩ := (reaches_succ n s t).mp h
    rw [Nat.add_right_comm, run_next Sys2Proof.core hstep, ih hrest]

theorem run_of_halted {n : Nat} {s t : State} {k : Stop} (h : reaches n s t) (hk : t.status = .halted k) (m : Nat) :
    Host.Core.run Sys2Proof.core (n + 1 + m) s = .fault (.halted k) := by
  rw [Nat.add_assoc, Nat.add_comm 1 m, run_add h]
  exact run_fault Sys2Proof.core (step_of_halted hk)

/-- No state is reached in more steps than a halted one. -/
theorem le_of_reaches_halted {n n' : Nat} {s t t' : State} {k : Stop} (h : reaches n s t) (hk : t.status = .halted k)
    (h' : reaches n' s t') : n' ≤ n := by
  by_contra hlt
  obtain ⟨m, rfl⟩ := Nat.exists_eq_add_of_le (Nat.lt_of_not_le hlt)
  cases (run_of_halted h hk m).symm.trans h'

/-- Settles O58: two halted states are reached in equally many steps, and a halted core has no further step. -/
theorem runsEndOnce : Obligations.RunsEndOnce := by
  refine ⟨fun s t t' k k' ⟨⟨n, h⟩, hk⟩ ⟨⟨n', h'⟩, hk'⟩ => ?_, fun _ _ _ _ => run_of_halted⟩
  obtain rfl : n = n' := Nat.le_antisymm (le_of_reaches_halted h' hk' h) (le_of_reaches_halted h hk h')
  obtain rfl : t = t' := Host.Outcome.next.inj (h.symm.trans h')
  exact ⟨Status.halted.inj (hk.symm.trans hk'), rfl⟩

end Sys2Proof.Machine
end

section
namespace Sys2Proof.Machine
open Sys2Proof.Claims

/-! ### Registers and flags (R17, R25) -/

/-- Settles O3: a register write, read back at the same register and at another. -/
theorem registerReadAfterWrite : Obligations.RegisterReadAfterWrite := by
  intro s r q v
  exact ⟨Regs.get_set_self s.x r v, Regs.get_set_ne s.x v⟩

/-- Settles O5: the bits of a word after one flag is set or cleared. -/
theorem flagPlacesAndSetters : Obligations.FlagPlacesAndSetters := by
  intro w f b
  refine ⟨rfl, rfl, rfl, rfl, ?_, fun n _ hn => ?_⟩
  · rw [getFlag, getLsbD_putFlag, if_pos rfl]
  · rw [getLsbD_putFlag, if_neg hn]

/-! ### The order of the ModRM fetches (R54, R121) -/

/-- The SIB byte is fetched first, and what follows it starts at the byte after it. -/
theorem fetch_sib_error {s : State} {e : Raise} {x : Except Raise Unit} (h : (s.fetchU8 2 >>= fun _ => x) = .error e)
    (hx : x = .error e → e = .outOfBoundsAccess (after s 3)) :
    (s.inBounds (after s 2) = false ∧ e = .outOfBoundsAccess (after s 2)) ∨
      (s.inBounds (after s 2) = true ∧ e = .outOfBoundsAccess (after s 3)) := by
  rcases (bind_error_iff _ _ _).mp h with h2 | ⟨_, h2, h3⟩
  · exact .inl ((fetchU8_error s 2 e).mp h2)
  · exact .inr ⟨((fetchU8_ok s 2 _).mp h2).1, hx h3⟩

/-- What the ModRM fetches can raise once the ModRM byte is in memory: without a SIB byte, only the access right after
it; with one, that of the SIB byte or of the displacement. -/
theorem fetchModRM_error_after {s : State} {rm : RM} {e : Raise} (hmodRM : s.inBounds (after s 1) = true)
    (h : s.fetchModRM rm = .error e) : ∃ m, rm = .mem m ∧
      (sibStop m 0 = none ∧ e = .outOfBoundsAccess (after s 2) ∨
        sibStop m 0 ≠ none ∧ ((s.inBounds (after s 2) = false ∧ e = .outOfBoundsAccess (after s 2)) ∨
          (s.inBounds (after s 2) = true ∧ e = .outOfBoundsAccess (after s 3)))) := by
  have byte (k : Nat) (h : s.fetchU8 k = .error e) : e = .outOfBoundsAccess (after s k) :=
    ((fetchU8_error s k e).mp h).2
  have word (k : Nat) (h : s.fetch32 k = .error e) : e = .outOfBoundsAccess (after s k) :=
    ((fetch32_error s k e).mp h).2
  have hfirst (h : s.fetchU8 1 = .error e) : False :=
    Bool.false_ne_true (((fetchU8_error s 1 e).mp h).1.symm.trans hmodRM)
  refine bind_error_elim h (fun h => (hfirst h).elim) fun _ h => ?_
  match rm, h with
  | .mem (.abs _), h | .mem (.disp32 _ _), h =>
    exact ⟨_, rfl, .inl ⟨rfl, bind_error_elim h (word 2) fun _ h => nomatch h⟩⟩
  | .mem (.disp8 _ _), h => exact ⟨_, rfl, .inl ⟨rfl, bind_error_elim h (byte 2) fun _ h => nomatch h⟩⟩
  | .mem (.sib _), h => exact ⟨_, rfl, .inr ⟨nofun, fetch_sib_error h fun h => nomatch h⟩⟩
  | .mem (.sibDisp8 _ _), h =>
    exact ⟨_, rfl, .inr ⟨nofun, fetch_sib_error h fun h => bind_error_elim h (byte 3) fun _ h => nomatch h⟩⟩
  | .mem (.sibDisp32 _ _), h =>
    exact ⟨_, rfl, .inr ⟨nofun, fetch_sib_error h fun h => bind_error_elim h (word 3) fun _ h => nomatch h⟩⟩

/-- Settles O16: the ModRM byte comes first, and what may follow it depends on the form. -/
theorem modRMFetchOrder : Obligations.ModRMFetchOrder := by
  intro s rm e h
  cases hmodRM : s.inBounds (after s 1) with
  | false => exact .inl ⟨rfl, Except.error.inj (h.symm.trans (fetchModRM_of_modRM_missing hmodRM rm))⟩
  | true =>
    obtain ⟨m, rfl, ⟨hsib, he⟩ | ⟨hsib, ⟨hout, he⟩ | ⟨hin, he⟩⟩⟩ := fetchModRM_error_after hmodRM h
    · exact .inr (.inl ⟨rfl, m, rfl, (Bool.eq_false_or_eq_true _).symm.imp_right (⟨·, hsib⟩), he⟩)
    · exact .inr (.inl ⟨rfl, m, rfl, .inl hout, he⟩)
    · exact .inr (.inr ⟨rfl, hin, m, rfl, hsib, he⟩)

/-! ### The instruction cycle (R70, R72) -/

theorem endTest_eq_ite (t : State) :
    t.endTest = if t.status = .running ∧ t.pc = 0 then { t with status := .halted .normalEnd } else t := by
  cases hrun : t.status with
  | halted k => rw [endTest_of_halted t k hrun, if_neg (by simp)]
  | running =>
    by_cases hpc : t.pc = 0
    · rw [endTest_zero t hpc hrun, if_pos ⟨rfl, hpc⟩]
      rfl
    · rw [endTest_of_ne t hpc, if_neg fun h => hpc h.2]

/-- Settles O18: the step is the meaning of the decoded instruction and the end test on what it answers. -/
theorem stepRunsDecodedInstruction : Obligations.StepRunsDecodedInstruction := by
  intro s i rest hrun hin hdec
  rw [step_of_decode_ok hrun hin hdec]
  rcases exec_cases i s with ⟨e, hexec⟩ | ⟨t, hexec, -⟩ <;> rw [hexec] <;>
    exact congrArg Host.Outcome.next (endTest_eq_ite _)

/-- Where memory at `pc` holds the bytes of a well-formed instruction, the decoder reads it. -/
theorem decode_window_of_holdsCode {s : State} {i : Instr} (hi : i.wellFormed = true) (hcode : s.holdsCode (encode i)) :
    ∃ rest, decode s.window = .ok (i, rest) := by
  obtain ⟨hlen, -, hmax⟩ := encodedLength i
  obtain ⟨rest, hrest⟩ := holdsCode_prefix_window hcode (by rwa [hlen])
  exact ⟨rest, hrest ▸ decodeOfEncode i rest hi⟩

theorem inBounds_pc_of_holdsCode_encode {s : State} {i : Instr} (hcode : s.holdsCode (encode i)) :
    s.inBounds s.pc = true := by
  obtain ⟨hlen, hpos, -⟩ := encodedLength i
  have hopcode := (hcode 0 (by rwa [hlen])).1
  rwa [BitVec.add_zero] at hopcode

/-- Settles O19: the decoder reads the instruction back from memory, and the end test has three outcomes. -/
theorem stepRunsInstructionInMemory : Obligations.StepRunsInstructionInMemory := by
  intro s t i hrun hi hcode hexec
  obtain ⟨rest, hdec⟩ := decode_window_of_holdsCode hi hcode
  have hstep : step s = .next t.endTest := by
    rw [step_of_decode_ok hrun (inBounds_pc_of_holdsCode_encode hcode) hdec, hexec, afterExec]
  rw [hstep]
  refine ⟨fun _ hpc => ?_, fun ht hpc => ?_, fun ht => ?_⟩
  · rw [endTest_of_ne t hpc]
  · rw [endTest_zero t hpc ht]
    rfl
  · rw [endTest_eq_ite, if_neg fun h => ht h.1]

theorem attempt_answers (s : State) (r : Except Raise State) : ∃ t, attempt s r = .next t := by
  cases r <;> exact ⟨_, rfl⟩

/-- A rejection has a next state, unless the bytes were too few. -/
theorem reject_answers (s : State) {d : DecodeError} (h : d ≠ .truncated) : ∃ t, s.reject d = .next t := by
  cases d with
  | truncated => exact absurd rfl h
  | emptyEntry op =>
    rw [State.reject]
    exact attempt_answers s _
  | groupVariant op sub rm =>
    rw [State.reject]
    exact attempt_answers s _

/-- Settles O20: each case of a running step answers a state, and the eleven bytes shown are never too few. -/
theorem onlyHaltedCoresHaveNoStep : Obligations.OnlyHaltedCoresHaveNoStep := by
  refine fun s => ⟨fun hrun => ?_, fun k => step_of_halted⟩
  cases hin : s.inBounds s.pc with
  | false => exact ⟨_, step_of_pc_outOfBounds hrun hin⟩
  | true =>
    cases hdec : decode s.window with
    | error d =>
      rw [step_of_decode_error hrun hin hdec]
      refine reject_answers s fun htrunc => ?_
      exact decode_ne_truncated (Nat.le_of_eq (window_length s).symm) (htrunc ▸ hdec)
    | ok p =>
      rw [step_of_decode_ok hrun hin (i := p.1) (rest := p.2) hdec]
      rcases exec_cases p.1 s with ⟨e, hexec⟩ | ⟨t, hexec, -⟩ <;> rw [hexec] <;> exact ⟨_, rfl⟩

/-! ### Pairs of instructions (R95, R96, R99, R100) -/

/-- Settles O45: the return pops the word the call pushed, and `ESP - 4 + 4 = ESP`. -/
theorem returnAfterCall : Obligations.ReturnAfterCall := by
  intro rel s hcode hslot
  refine ⟨_, (callRelative rel s).2.1 hcode hslot, rfl, ((returnPopsPc _).2.1 ?_).trans ?_⟩
  · exact hslot
  · rw [Memory.word_storeWord, BitVec.sub_add_cancel]

/-- Settles O46: the pop reads the word the push stored, and `ESP - 4 + 4 = ESP`. -/
theorem popAfterPushMoves : Obligations.PopAfterPushMoves := by
  intro r q s hpc hpc1 hslot
  refine ⟨_, ((pushRegister r s).2 hpc).1 hslot, (((popRegister q _).2 ?_).1 ?_).trans ?_⟩
  · exact hpc1
  · exact hslot
  · rw [Memory.word_storeWord, BitVec.sub_add_cancel, after, after, BitVec.add_assoc]
    rfl

/-! ### Displacements (R75, R103) -/

theorem add_relTo (addr target : Word) (n : Nat) : addr + relTo addr target n + BitVec.ofNat 32 n = target := by
  rw [relTo]
  bv_omega

/-- Settles O50: the displacement, added to the address and the length, gives the target. -/
theorem assembledDisplacementReachesTarget : Obligations.AssembledDisplacementReachesTarget := by
  intro s target
  have hjump {pc : Word} (hpc : pc = target) :
      (.next { s with pc := pc } : Host.Outcome State Fault Refusal) = .next { s with pc := target } := by rw [hpc]
  refine ⟨fun hcode => ⟨?_, fun hslot => ?_⟩, fun b hin hb => ?_⟩
  · exact ((jumpNear _ s).2.1 hcode).trans (hjump (add_relTo s.pc target 5))
  · exact ⟨_, (callRelative _ s).2.1 hcode hslot, add_relTo s.pc target 5⟩
  · exact ((jumpShort b s).2.1 hin).trans (hjump (by rw [hb]; exact add_relTo s.pc target 2))

end Sys2Proof.Machine
end
